-- ==== Sys2Proof/Word.lean ====
section
/-! DEFINITION. The byte and the truncation to a byte (R10, R11 of spec/00_scope.md). -/

namespace Sys2Proof

/-- R10: a byte, an unsigned value in [0, 255] with bits 7 down to 0. -/
abbrev Byte := BitVec 8

/-- R11: `trunc8(v)`, the residue of an exact integer modulo 256, non-negative for a negative `v`. -/
def trunc8 (v : Int) : Byte := BitVec.ofInt 8 v

end Sys2Proof
end

