-- ==== Sys2Proof/Config.lean ====
section
/-! DEFINITION. What is fixed for one machine: the names of the 30 instructions, the shape of an opcode table,
the parameter LDST_SUPPORT, and the small records that decoding passes on (R8, R9 of spec/00_scope.md,
R70, R71, R74 of spec/30_encoding.md). The default values stand in Decode.lean. -/

namespace Sys2Proof

/-- The 30 instructions of R78, by name; an opcode table gives each of them one byte. -/
inductive Op where
  | hlt | ret | push | pop | prn | call | jmp | jeq | jne | jgt
  | jlt | jle | jge | inc | dec | not | ldi | ld | st | add
  | sub | mul | div | mod | cmp | and | or | xor | shl | shr
  deriving DecidableEq, Repr

/-- OPCODE_TABLE of R9: the opcode byte of each instruction. It is plain data, one byte a row of R78. -/
structure OpcodeTable where
  (hlt ret push pop prn call jmp jeq jne jgt : Byte)
  (jlt jle jge inc dec not ldi ld st add : Byte)
  (sub mul div mod cmp and or xor shl shr : Byte)
  deriving DecidableEq, Repr

/-- LDST_SUPPORT of R9 and R164: whether LD and ST execute. No third behaviour is admitted. -/
inductive LdstSupport where
  /-- The bytes of LD and ST are rejected at dispatch. -/
  | unsupported
  /-- R162 and R163 apply. -/
  | implemented
  deriving DecidableEq, Repr

/-- The named parameters of R9. -/
structure Config where
  table : OpcodeTable
  ldst : LdstSupport
  deriving DecidableEq, Repr

/-- The fields of an opcode byte `AABCDDDD` (R70). -/
structure OpcodeFields where
  /-- AA, bits 7:6: how many operand bytes follow. -/
  operandCount : Nat
  /-- B, bit 5: an ALU operation. -/
  alu : Bool
  /-- C, bit 4: the instruction sets pc itself. -/
  pcSet : Bool
  /-- DDDD, bits 3:0: the id within its class. -/
  opcodeId : BitVec 4
  deriving DecidableEq, Repr

/-- The three bytes a step fetches (R74, R101): the opcode byte and the two after it. -/
structure Window where
  (ir opA opB : Byte)
  deriving DecidableEq, Repr

/-- Why an opcode byte selects no instruction (R82). -/
inductive DecodeReject where
  /-- No row of the table, and bit 5 is 0. -/
  | unsupportedOpcode
  /-- No row of the table, and bit 5 is 1. -/
  | unsupportedAluOp
  deriving DecidableEq, Repr

end Sys2Proof
end

