-- ==== Sys2Proof/Syntax.lean ====
section
/-! DEFINITION. The instructions, one constructor a row of spec/opcode_table.json. A register operand is a whole
byte (R75 of spec/30_encoding.md): a byte above 7 is still an instruction, and faults only where it is used. -/

namespace Sys2Proof

/-- R73: the 30 instructions with their operand bytes as they stand after the opcode byte. -/
inductive Instr where
  /-- R220: halt. -/
  | hlt
  /-- R184: return from a subroutine. -/
  | ret
  /-- R181: push register `r`. -/
  | push (r : Byte)
  /-- R182: pop into register `r`. -/
  | pop (r : Byte)
  /-- R161: emit register `r`. -/
  | prn (r : Byte)
  /-- R183: call the address in register `r`. -/
  | call (r : Byte)
  /-- R201: jump to the address in register `r`. -/
  | jmp (r : Byte)
  /-- R202: jump if Equal. -/
  | jeq (r : Byte)
  /-- R203: jump if not Equal. -/
  | jne (r : Byte)
  /-- R204: jump if Greater. -/
  | jgt (r : Byte)
  /-- R205: jump if Less. -/
  | jlt (r : Byte)
  /-- R206: jump if Less or Equal. -/
  | jle (r : Byte)
  /-- R207: jump if Greater or Equal. -/
  | jge (r : Byte)
  /-- R127. -/
  | inc (a : Byte)
  /-- R128. -/
  | dec (a : Byte)
  /-- R132. -/
  | not (a : Byte)
  /-- R160: load the immediate `imm` into register `r`. -/
  | ldi (r imm : Byte)
  /-- R162: load register `a` from the address in register `b`. -/
  | ld (a b : Byte)
  /-- R163: store register `b` at the address in register `a`. -/
  | st (a b : Byte)
  /-- R122. -/
  | add (a b : Byte)
  /-- R123. -/
  | sub (a b : Byte)
  /-- R124. -/
  | mul (a b : Byte)
  /-- R125. -/
  | div (a b : Byte)
  /-- R126. -/
  | mod (a b : Byte)
  /-- R133: compare registers `a` and `b`. -/
  | cmp (a b : Byte)
  /-- R129. -/
  | and (a b : Byte)
  /-- R130. -/
  | or (a b : Byte)
  /-- R131. -/
  | xor (a b : Byte)
  /-- R134. -/
  | shl (a b : Byte)
  /-- R135. -/
  | shr (a b : Byte)
  deriving DecidableEq, Repr

end Sys2Proof
end

