-- ==== Sys2Proof/WellFormed.lean ====
section
/-! DEFINITION. What a well-formed program's instructions keep to: "give register operands in [0, 7]"
(R278 of spec/70_reset_and_hazards.md). The core itself checks an index only where it uses it (R246). -/

namespace Sys2Proof

/-- R75: the byte names one of R0 to R7. -/
def namesRegister (b : Byte) : Bool := b.toNat ≤ 7

/-- The operand bytes that stand for registers, in operand order (R73). -/
def Instr.registerOperands : Instr → List Byte
  | .hlt | .ret => []
  | .push r | .pop r | .prn r | .call r | .jmp r | .jeq r | .jne r
  | .jgt r | .jlt r | .jle r | .jge r | .inc r | .dec r | .not r => [r]
  | .ldi r _ => [r]
  | .ld a b | .st a b | .add a b | .sub a b | .mul a b | .div a b | .mod a b
  | .cmp a b | .and a b | .or a b | .xor a b | .shl a b | .shr a b => [a, b]

/-- Every register operand names a register of the file. -/
def Instr.wellFormed (i : Instr) : Bool := i.registerOperands.all namesRegister

end Sys2Proof
end

