-- ==== Sys2Proof/Decode.lean ====
section
/-! DEFINITION. Decoding and encoding (spec/30_encoding.md): the fields of the opcode byte, the opcode table and the
constraints it must meet, the decoder, and the encoder. The default values of the two parameters of R9 stand
here too. -/

namespace Sys2Proof

/-! ## The opcode byte -/

/-- R71, R102: the fields of any byte; it never fails. -/
def decodeFields (b : Byte) : OpcodeFields where
  operandCount := (b.extractLsb' 6 2).toNat
  alu := b.getLsbD 5
  pcSet := b.getLsbD 4
  opcodeId := b.extractLsb' 0 4

/-- R72, R84: the length of an instruction, from its first byte alone. -/
def instrLength (ir : Byte) : Nat := 1 + (decodeFields ir).operandCount

/-! ## The opcode table -/

/-- Every instruction name, in the order of R78. -/
def Op.all : List Op :=
  [.hlt, .ret, .push, .pop, .prn, .call, .jmp, .jeq, .jne, .jgt]
  ++ [.jlt, .jle, .jge, .inc, .dec, .not, .ldi, .ld, .st, .add]
  ++ [.sub, .mul, .div, .mod, .cmp, .and, .or, .xor, .shl, .shr]

/-- The byte a table gives an instruction. -/
def OpcodeTable.byteOf (t : OpcodeTable) : Op → Byte
  | .hlt => t.hlt | .ret => t.ret | .push => t.push | .pop => t.pop | .prn => t.prn
  | .call => t.call | .jmp => t.jmp | .jeq => t.jeq | .jne => t.jne | .jgt => t.jgt
  | .jlt => t.jlt | .jle => t.jle | .jge => t.jge | .inc => t.inc | .dec => t.dec
  | .not => t.not | .ldi => t.ldi | .ld => t.ld | .st => t.st | .add => t.add
  | .sub => t.sub | .mul => t.mul | .div => t.div | .mod => t.mod | .cmp => t.cmp
  | .and => t.and | .or => t.or | .xor => t.xor | .shl => t.shl | .shr => t.shr

/-- R78: the default OPCODE_TABLE. Only XOR's byte is in the source; the others the spec takes from general
knowledge (D1, K2). Log entry 3 (PRESUMED, unsafe). -/
def OpcodeTable.default : OpcodeTable where
  hlt := 0x01; ret := 0x11; push := 0x45; pop := 0x46; prn := 0x47
  call := 0x50; jmp := 0x54; jeq := 0x55; jne := 0x56; jgt := 0x57
  jlt := 0x58; jle := 0x59; jge := 0x5A; inc := 0x65; dec := 0x66
  not := 0x69; ldi := 0x82; ld := 0x83; st := 0x84; add := 0xA0
  sub := 0xA1; mul := 0xA2; div := 0xA3; mod := 0xA4; cmp := 0xA7
  and := 0xA8; or := 0xAA; xor := 0xAB; shl := 0xAC; shr := 0xAD

/-- R9: the default parameters. LDST_SUPPORT is `unsupported` by default (D6). Log entry 2. -/
def Config.default : Config where
  table := OpcodeTable.default
  ldst := .unsupported

/-- R79 point 2: the ALU operations, exactly the instructions whose byte has B = 1. -/
def Op.isAlu : Op → Bool
  | .inc | .dec | .not | .add | .sub | .mul | .div | .mod | .cmp | .and
  | .or | .xor | .shl | .shr => true
  | .hlt | .ret | .push | .pop | .prn | .call | .jmp | .jeq | .jne | .jgt
  | .jlt | .jle | .jge | .ldi | .ld | .st => false

/-- R79 point 3: the instructions that set pc, exactly those whose byte has C = 1. -/
def Op.setsPc : Op → Bool
  | .ret | .call | .jmp | .jeq | .jne | .jgt | .jlt | .jle | .jge => true
  | .hlt | .push | .pop | .prn | .inc | .dec | .not | .ldi | .ld | .st
  | .add | .sub | .mul | .div | .mod | .cmp | .and | .or | .xor | .shl
  | .shr => false

/-- R79 point 1: the operand counts a table may give an instruction. INC, DEC and NOT take 1 in the default table;
for another table the rule fixes nothing more than that they ignore a second operand, so 2 is admitted as well.
Log entry 4 (DEDUCED). -/
def Op.operandCounts : Op → List Nat
  | .hlt | .ret => [0]
  | .push | .pop | .prn | .call | .jmp | .jeq | .jne | .jgt | .jlt | .jle
  | .jge => [1]
  | .inc | .dec | .not => [1, 2]
  | .ldi | .ld | .st | .add | .sub | .mul | .div | .mod | .cmp | .and
  | .or | .xor | .shl | .shr => [2]

/-- One row of a table meets points 1 to 3 of R79. -/
def OpcodeTable.rowConforms (t : OpcodeTable) (o : Op) : Bool :=
  o.operandCounts.contains (decodeFields (t.byteOf o)).operandCount
    && (decodeFields (t.byteOf o)).alu == o.isAlu
    && (decodeFields (t.byteOf o)).pcSet == o.setsPc

/-- R79: the table is a table of this hardware: every row meets points 1 to 3, all bytes are distinct (4), and
XOR has the byte the source gives (5). -/
def OpcodeTable.conforms (t : OpcodeTable) : Bool :=
  Op.all.all t.rowConforms && decide (Op.all.map t.byteOf).Nodup && t.xor == 0b10101011

/-- R81: dispatch is keyed on the whole opcode byte. -/
def OpcodeTable.lookup (t : OpcodeTable) (b : Byte) : Option Op :=
  Op.all.find? fun o => t.byteOf o == b

/-! ## Decoding -/

/-- The instruction with its operand bytes, which are the bytes at pc + 1 and pc + 2 (R73). Bytes the instruction
does not use are dropped unchecked (R77). -/
def Instr.ofOp (o : Op) (opA opB : Byte) : Instr :=
  match o with
  | .hlt => .hlt | .ret => .ret | .push => .push opA
  | .pop => .pop opA | .prn => .prn opA | .call => .call opA
  | .jmp => .jmp opA | .jeq => .jeq opA | .jne => .jne opA
  | .jgt => .jgt opA | .jlt => .jlt opA | .jle => .jle opA
  | .jge => .jge opA | .inc => .inc opA | .dec => .dec opA
  | .not => .not opA | .ldi => .ldi opA opB | .ld => .ld opA opB
  | .st => .st opA opB | .add => .add opA opB | .sub => .sub opA opB
  | .mul => .mul opA opB | .div => .div opA opB | .mod => .mod opA opB
  | .cmp => .cmp opA opB | .and => .and opA opB | .or => .or opA opB
  | .xor => .xor opA opB | .shl => .shl opA opB | .shr => .shr opA opB

/-- R103 and R82: the instruction a fetched window selects, or why it selects none. It is total: every window of
three bytes gets one of the two. LD and ST decode whatever LDST_SUPPORT is; their meanings make R103's check of it. -/
def decode (t : OpcodeTable) (w : Window) : Except DecodeReject Instr :=
  match t.lookup w.ir with
  | some o => .ok (Instr.ofOp o w.opA w.opB)
  | none => if (decodeFields w.ir).alu then .error .unsupportedAluOp else .error .unsupportedOpcode

/-- The window that starts a list of bytes; bytes the list does not have are 0. -/
def windowOf (bs : List Byte) : Window where
  ir := bs.getD 0 0
  opA := bs.getD 1 0
  opB := bs.getD 2 0

/-- The window in which an instruction whose `nbits` bits are `w` lies, numbered as spec/opcode_table.json numbers
them: the first byte holds bits 7:0, the second bits 15:8, the third bits 23:16; bits from `nbits` up are 0. -/
def windowOfTableWord (nbits w : Nat) : Window where
  ir := BitVec.ofNat 8 (w % 2 ^ nbits)
  opA := BitVec.ofNat 8 ((w % 2 ^ nbits) >>> 8)
  opB := BitVec.ofNat 8 ((w % 2 ^ nbits) >>> 16)

/-- The instruction the decoder reads from a word of the opcode table, under the default table. -/
def decodeTableWord (nbits w : Nat) : Option Instr :=
  (decode OpcodeTable.default (windowOfTableWord nbits w)).toOption

/-! ## Encoding -/

/-- The name of an instruction. -/
def Instr.op : Instr → Op
  | .hlt => .hlt | .ret => .ret | .push _ => .push | .pop _ => .pop | .prn _ => .prn
  | .call _ => .call | .jmp _ => .jmp | .jeq _ => .jeq | .jne _ => .jne | .jgt _ => .jgt
  | .jlt _ => .jlt | .jle _ => .jle | .jge _ => .jge | .inc _ => .inc | .dec _ => .dec
  | .not _ => .not | .ldi _ _ => .ldi | .ld _ _ => .ld | .st _ _ => .st | .add _ _ => .add
  | .sub _ _ => .sub | .mul _ _ => .mul | .div _ _ => .div | .mod _ _ => .mod | .cmp _ _ => .cmp
  | .and _ _ => .and | .or _ _ => .or | .xor _ _ => .xor | .shl _ _ => .shl | .shr _ _ => .shr

/-- The operand bytes of an instruction, in the order they follow the opcode byte (R73). -/
def Instr.operandBytes : Instr → List Byte
  | .hlt | .ret => []
  | .push r | .pop r | .prn r | .call r | .jmp r | .jeq r | .jne r
  | .jgt r | .jlt r | .jle r | .jge r | .inc r | .dec r | .not r => [r]
  | .ldi r imm => [r, imm]
  | .ld a b | .st a b | .add a b | .sub a b | .mul a b | .div a b
  | .mod a b | .cmp a b | .and a b | .or a b | .xor a b | .shl a b
  | .shr a b => [a, b]

/-- R85: the bytes of an instruction: its opcode byte, then as many operand bytes as the byte's AA field says. A
table may give INC, DEC and NOT a second operand byte, which they ignore; the encoder writes 0 there. -/
def encode (t : OpcodeTable) (i : Instr) : List Byte :=
  t.byteOf i.op :: (i.operandBytes ++ [0]).take (decodeFields (t.byteOf i.op)).operandCount

/-! ## Assembly notation -/

/-- The mnemonic of an instruction, as R78 and spec/opcode_table.json spell it. -/
def Op.mnemonic : Op → String
  | .hlt => "HLT" | .ret => "RET" | .push => "PUSH" | .pop => "POP" | .prn => "PRN"
  | .call => "CALL" | .jmp => "JMP" | .jeq => "JEQ" | .jne => "JNE" | .jgt => "JGT"
  | .jlt => "JLT" | .jle => "JLE" | .jge => "JGE" | .inc => "INC" | .dec => "DEC"
  | .not => "NOT" | .ldi => "LDI" | .ld => "LD" | .st => "ST" | .add => "ADD"
  | .sub => "SUB" | .mul => "MUL" | .div => "DIV" | .mod => "MOD" | .cmp => "CMP"
  | .and => "AND" | .or => "OR" | .xor => "XOR" | .shl => "SHL" | .shr => "SHR"

/-- R13: a register operand is written `Rn`, for R0 to R7. DESIGN CHOICE, safe: the spec names no form for an operand
byte above 7; this writes R8 to R255 for bytes 8 to 255 (log entry 17). -/
def regName (b : Byte) : String := "R" ++ toString b.toNat

/-- R85, R13: an instruction in assembly notation, its operands in written order separated by a comma. An
immediate is in decimal, one of the two forms R13 allows. -/
def Instr.asm (i : Instr) : String :=
  match i with
  | .ldi r imm => "LDI " ++ regName r ++ "," ++ toString imm.toNat
  | i =>
    match i.registerOperands with
    | [] => i.op.mnemonic
    | r :: rs => rs.foldl (fun s b => s ++ "," ++ regName b) (i.op.mnemonic ++ " " ++ regName r)

end Sys2Proof
end

