-- ==== Sys2Proof/Machine/State.lean ====
section
/-! DEFINITION. The state of one core (spec/10_state.md, spec/20_memory.md) and its reset value. -/

namespace Sys2Proof.Machine

/-- R241: the kinds of fatal error. A fatal error is a value of the run state (R26), so each of these is reached by a
next state and never by a `Fault` of the interface. -/
inductive FaultKind where
  /-- Raised at dispatch: no row of the table, and bit 5 of the opcode byte is 0; LD and ST when unsupported. -/
  | unsupportedOpcode
  /-- Raised at dispatch: no row of the table, and bit 5 of the opcode byte is 1. -/
  | unsupportedAluOp
  /-- Raised by DIV and MOD when the divisor register holds 0. -/
  | divideByZero
  /-- Raised by the fetch when pc, pc + 1 or pc + 2 is above 255. -/
  | addressOutOfRange
  /-- Raised by an instruction that uses an operand byte above 7 as a register index. -/
  | registerIndexOutOfRange
  deriving DecidableEq, Repr

/-- R26: the run state. HALTED and FAULTED are terminal. -/
inductive RunState where
  | running
  | halted
  | faulted (kind : FaultKind)
  deriving DecidableEq, Repr

/-- R50: the memory, as the list of the cells that differ from `Memory.unlisted`, addresses strictly rising. -/
abbrev Memory := List Host.Cell

/-- R52: what an address not listed reads as; memory is zero-filled at construction. -/
def Memory.unlisted : Byte := 0x00

/-- R20: the architectural state, exactly; and, as the model's own field, the parameters of R9, which no step
changes (log entry 1). -/
structure State where
  /-- The parameters OPCODE_TABLE and LDST_SUPPORT (R9, R21). -/
  cfg : Config
  /-- x[0] to x[7] (R22). -/
  regs : Vector Byte 8
  /-- The program counter, an integer in [0, 256] (R30). -/
  pc : Nat
  /-- FL: bit 0 Equal, bit 1 Greater, bit 2 Less, the others 0 (R32). -/
  fl : Byte
  /-- The 256 cells (R50). -/
  mem : Memory
  /-- The run state (R26). -/
  run : RunState
  /-- The output channel, oldest byte first (R27). -/
  out : List Byte
  deriving DecidableEq, Repr

/-- Faults of the interface. There are none: every fatal error the spec describes is taken, as the next state whose
run state is FAULTED(kind) (R243, log entry 5), so nothing raises a value of this type. -/
inductive Fault where
  deriving DecidableEq, Repr

/-- What the model refuses to run. -/
inductive Refusal where
  /-- Raised by exec for an instruction without a meaning; no arm of exec does so. Safe. -/
  | notModelled (mnemonic : String)
  /-- Raised by step when the opcode table breaks R79: "A table breaking these is not a table of this hardware; a
  model refuses it." Safe: nothing is claimed of such a machine (log entry 8). -/
  | nonConformingTable
  deriving DecidableEq, Repr

/-- The outcome of an instruction or a step. -/
abbrev Result := Host.Outcome State Fault Refusal

/-- R270, R271: a machine just constructed, for parameters `c`. -/
def State.resetWith (c : Config) : State where
  cfg := c
  regs := #v[0x00, 0x00, 0x00, 0x00, 0x00, 0x00, 0x00, 0xF4]
  pc := 0
  fl := 0
  mem := []
  run := .running
  out := []

/-- R270, R271: the reset state with the default parameters of R9. -/
def State.reset : State := State.resetWith Config.default

end Sys2Proof.Machine
end

