-- ==== Sys2Proof/Machine/Ops.lean ====
section
/-! DEFINITION. The named operations on memory, registers, pc, output and run state that every meaning is written
with (the state primitives of R12 of spec/00_scope.md), and the raising of a fault. -/

namespace Sys2Proof.Machine

/-! ## Memory -/

/-- R61: the value of the cell at an address. -/
def Memory.read : Memory → Nat → Byte
  | [], _ => Memory.unlisted
  | (k, v) :: m, a => if k = a then v else Memory.read m a

/-- The list with `(a, v)` put before `m`, unless `v` is what an unlisted address reads as. -/
def Memory.consCell (a : Nat) (v : Byte) (m : Memory) : Memory :=
  if v = Memory.unlisted then m else (a, v) :: m

/-- R54: one byte written at an address, the list kept in its canonical form. -/
def Memory.write : Memory → Nat → Byte → Memory
  | [], a, v => Memory.consCell a v []
  | (k, w) :: m, a, v =>
    if a < k then Memory.consCell a v ((k, w) :: m)
    else if a = k then Memory.consCell a v m
    else (k, w) :: Memory.write m a v

/-- The canonical form: addresses strictly rising, all of them below 256 (R50), no cell listed that reads as an
unlisted one. -/
def Memory.wf (m : Memory) : Bool :=
  decide (m.Pairwise fun c d => c.1 < d.1) && m.all fun c => decide (c.1 < 256) && c.2 != Memory.unlisted

/-- `MemRead(addr, 1)` at an address that is a byte, as every address but the fetch's is (R57). -/
def State.memRead (s : State) (a : Byte) : Byte := s.mem.read a.toNat

/-- `MemWrite(addr, 1, v)` (R12). -/
def State.memWrite (s : State) (a v : Byte) : State := { s with mem := s.mem.write a.toNat v }

/-- `MemRead` at an address that may be outside [0, 255] (R57): nothing there. -/
def State.memReadAt? (s : State) (a : Nat) : Option Byte :=
  if a ≤ 255 then some (s.mem.read a) else none

/-! ## Registers -/

/-- `x[i]` (R12). No register is hardwired (R23). -/
def State.reg (s : State) (i : Fin 8) : Byte := s.regs[i]

/-- `x[i] <- v` (R12). -/
def State.setReg (s : State) (i : Fin 8) (v : Byte) : State := { s with regs := s.regs.set i v }

/-- R25: the stack pointer is register 7. -/
def spIndex : Fin 8 := 7

/-- The stack pointer's value. -/
def State.sp (s : State) : Byte := s.reg spIndex

/-- R180: SP moved down by one, modulo 256. -/
def State.decSp (s : State) : State := s.setReg spIndex (trunc8 ((s.sp.toNat : Int) - 1))

/-- R180: SP moved up by one, modulo 256. -/
def State.incSp (s : State) : State := s.setReg spIndex (trunc8 ((s.sp.toNat : Int) + 1))

/-! ## pc, flags, output, run state -/

/-- `pc <- t` (R12). -/
def State.setPc (s : State) (t : Nat) : State := { s with pc := t }

/-- `fl <- v`; CMP is its only user (R33). -/
def State.setFl (s : State) (v : Byte) : State := { s with fl := v }

/-- `emit(v)` (R12): a byte appended to the output channel. -/
def State.emit (s : State) (v : Byte) : State := { s with out := s.out ++ [v] }

/-- `run <- r` (R12). -/
def State.setRun (s : State) (r : RunState) : State := { s with run := r }

/-! ## Faults -/

/-- `raise Fault(kind)` (R12, R240 to R243): the run state becomes FAULTED(kind) and nothing else changes. Every
meaning raises before its first write, so the state is the one the step began with. There is no return from a fault
(R251). -/
def takeFault (k : FaultKind) (s : State) : Result := .next (s.setRun (.faulted k))

end Sys2Proof.Machine
end

