-- ==== Sys2Proof/Machine/Flags.lean ====
section
/-! DEFINITION. The flags register (R32 to R35 of spec/10_state.md): CMP's new value of it and the conditions the jumps
read. No other operation computes a flag (R33). -/

namespace Sys2Proof.Machine

/-- R32: E, bit 0 of FL. -/
def State.flagE (s : State) : Bool := s.fl.getLsbD 0

/-- R32: G, bit 1 of FL. -/
def State.flagG (s : State) : Bool := s.fl.getLsbD 1

/-- R32: L, bit 2 of FL. -/
def State.flagL (s : State) : Bool := s.fl.getLsbD 2

/-- R133: FL after comparing `p` with `q`, unsigned. -/
def cmpFlags (p q : Byte) : Byte :=
  if p.toNat = q.toNat then 0b00000001
  else if p.toNat > q.toNat then 0b00000010
  else 0b00000100

/-- The values FL takes from reset on: none, or exactly one, of its three bits is 1 (R35). -/
def legalFlags (f : Byte) : Bool := f == 0 || f == 1 || f == 2 || f == 4

end Sys2Proof.Machine
end

