-- ==== Sys2Proof/Machine/Operands.lean ====
section
/-! DEFINITION. The operand forms of R73 of spec/30_encoding.md: a register operand is a byte used as an index (R75),
checked where it is used (R246), first operand then second (R249). An immediate is its byte (R76). -/

namespace Sys2Proof.Machine

/-- R75: the register a byte names, if it names one. -/
def regIndex? (b : Byte) : Option (Fin 8) :=
  if h : b.toNat < 8 then some ⟨b.toNat, h⟩ else none

/-- One register operand: what `f` does with its index, or RegisterIndexOutOfRange (R246). -/
def withReg (r : Byte) (s : State) (f : Fin 8 → Result) : Result :=
  match regIndex? r with
  | some i => f i
  | none => takeFault .registerIndexOutOfRange s

/-- Two register operands, the first checked first (R121). -/
def withRegs (a b : Byte) (s : State) (f : Fin 8 → Fin 8 → Result) : Result :=
  withReg a s fun i => withReg b s fun j => f i j

end Sys2Proof.Machine
end

