-- ==== Sys2Proof/Machine/Alu.lean ====
section
/-! DEFINITION. The ALU operations (spec/41_alu.md). Each reads its operands first, computes on exact integers, and
writes `trunc8` of the result last (R120). None moves pc (R104). -/

namespace Sys2Proof.Machine

/-! ## The values -/

/-- R122. -/
def addValue (p q : Byte) : Byte := trunc8 ((p.toNat : Int) + q.toNat)

/-- R123. -/
def subValue (p q : Byte) : Byte := trunc8 ((p.toNat : Int) - q.toNat)

/-- R124. -/
def mulValue (p q : Byte) : Byte := trunc8 ((p.toNat : Int) * q.toNat)

/-- R125: the quotient rounded down; used only with `q` not 0. -/
def divValue (p q : Byte) : Byte := BitVec.ofNat 8 (p.toNat / q.toNat)

/-- R126: the remainder; used only with `q` not 0. -/
def modValue (p q : Byte) : Byte := BitVec.ofNat 8 (p.toNat % q.toNat)

/-- R127. -/
def incValue (p : Byte) : Byte := trunc8 ((p.toNat : Int) + 1)

/-- R128. -/
def decValue (p : Byte) : Byte := trunc8 ((p.toNat : Int) - 1)

/-- R132: the 8-bit complement, 255 - v (R11). -/
def notValue (p : Byte) : Byte := trunc8 (255 - (p.toNat : Int))

/-- R134: the amount is the whole value of `q`; bits shifted past bit 7 are lost. -/
def shlValue (p q : Byte) : Byte := BitVec.ofNat 8 (p.toNat <<< q.toNat)

/-- R135: a logical shift by the whole value of `q`. -/
def shrValue (p q : Byte) : Byte := BitVec.ofNat 8 (p.toNat >>> q.toNat)

/-! ## The shared operations -/

/-- A two-operand ALU operation that writes its result to the first register (R120, R121). -/
def aluBinary (f : Byte → Byte → Byte) (a b : Byte) (s : State) : Result :=
  withRegs a b s fun i j => .next (s.setReg i (f (s.reg i) (s.reg j)))

/-- A one-operand ALU operation; the byte after its own encoding is never used (R120). -/
def aluUnary (f : Byte → Byte) (a : Byte) (s : State) : Result :=
  withReg a s fun i => .next (s.setReg i (f (s.reg i)))

/-- DIV and MOD: the divisor is checked after the indices and before the write (R125, R126, R247). -/
def aluDivide (f : Byte → Byte → Byte) (a b : Byte) (s : State) : Result :=
  withRegs a b s fun i j =>
    if s.reg j = 0 then takeFault .divideByZero s
    else .next (s.setReg i (f (s.reg i) (s.reg j)))

/-! ## The meanings -/

/-- R122: `x[a] <- trunc8(x[a] + x[b])`. -/
def execAdd (a b : Byte) (s : State) : Result := aluBinary addValue a b s

/-- R123: `x[a] <- trunc8(x[a] - x[b])`. -/
def execSub (a b : Byte) (s : State) : Result := aluBinary subValue a b s

/-- R124: `x[a] <- trunc8(x[a] * x[b])`. -/
def execMul (a b : Byte) (s : State) : Result := aluBinary mulValue a b s

/-- R125: `x[a] <- x[a] div x[b]`, or DivideByZero. -/
def execDiv (a b : Byte) (s : State) : Result := aluDivide divValue a b s

/-- R126: `x[a] <- x[a] mod x[b]`, or DivideByZero. -/
def execMod (a b : Byte) (s : State) : Result := aluDivide modValue a b s

/-- R127: `x[a] <- trunc8(x[a] + 1)`. -/
def execInc (a : Byte) (s : State) : Result := aluUnary incValue a s

/-- R128: `x[a] <- trunc8(x[a] - 1)`. -/
def execDec (a : Byte) (s : State) : Result := aluUnary decValue a s

/-- R132: `x[a] <- ~8 x[a]`. -/
def execNot (a : Byte) (s : State) : Result := aluUnary notValue a s

/-- R129: `x[a] <- x[a] & x[b]`. -/
def execAnd (a b : Byte) (s : State) : Result := aluBinary (fun p q => p &&& q) a b s

/-- R130: `x[a] <- x[a] | x[b]`. -/
def execOr (a b : Byte) (s : State) : Result := aluBinary (fun p q => p ||| q) a b s

/-- R131: `x[a] <- x[a] ^ x[b]`. -/
def execXor (a b : Byte) (s : State) : Result := aluBinary (fun p q => p ^^^ q) a b s

/-- R134: `x[a] <- trunc8(x[a] << x[b])`. -/
def execShl (a b : Byte) (s : State) : Result := aluBinary shlValue a b s

/-- R135: `x[a] <- x[a] >> x[b]`. -/
def execShr (a b : Byte) (s : State) : Result := aluBinary shrValue a b s

/-- R133: FL written whole from the unsigned comparison; no register is written. -/
def execCmp (a b : Byte) (s : State) : Result :=
  withRegs a b s fun i j => .next (s.setFl (cmpFlags (s.reg i) (s.reg j)))

end Sys2Proof.Machine
end

