-- ==== Sys2Proof/Machine/ControlFlow.lean ====
section
/-! DEFINITION. The jumps (spec/44_control_flow.md). -/

namespace Sys2Proof.Machine

/-- R201: pc from the register the operand names. -/
def jumpTo (r : Byte) (s : State) : Result :=
  withReg r s fun i => .next (s.setPc (s.reg i).toNat)

/-- R200: a taken conditional jump behaves as JMP; one not taken adds its own length, 2, and does not look at its
operand. -/
def jumpIf (taken : Bool) (r : Byte) (s : State) : Result :=
  if taken then jumpTo r s else .next (s.setPc (s.pc + 2))

/-- R201. -/
def execJmp (r : Byte) (s : State) : Result := jumpTo r s

/-- R202: taken if E = 1. -/
def execJeq (r : Byte) (s : State) : Result := jumpIf s.flagE r s

/-- R203: taken if E = 0. -/
def execJne (r : Byte) (s : State) : Result := jumpIf (!s.flagE) r s

/-- R204: taken if G = 1. -/
def execJgt (r : Byte) (s : State) : Result := jumpIf s.flagG r s

/-- R205: taken if L = 1. -/
def execJlt (r : Byte) (s : State) : Result := jumpIf s.flagL r s

/-- R206: taken if L = 1 or E = 1. -/
def execJle (r : Byte) (s : State) : Result := jumpIf (s.flagL || s.flagE) r s

/-- R207: taken if G = 1 or E = 1. -/
def execJge (r : Byte) (s : State) : Result := jumpIf (s.flagG || s.flagE) r s

end Sys2Proof.Machine
end

