-- ==== Sys2Proof/Machine/DataMovement.lean ====
section
/-! DEFINITION. LDI, PRN, LD and ST (spec/42_data_movement.md). None moves pc. -/

namespace Sys2Proof.Machine

/-- R160: `x[r] <- imm`. -/
def execLdi (r imm : Byte) (s : State) : Result :=
  withReg r s fun i => .next (s.setReg i imm)

/-- R161: `emit(x[r])`. -/
def execPrn (r : Byte) (s : State) : Result :=
  withReg r s fun i => .next (s.emit (s.reg i))

/-- R103, R164: LD and ST run only when LDST_SUPPORT is `implemented`; otherwise their bytes are rejected as at
dispatch, before any other check (R249). A conforming table gives both B = 0, so the kind is UnsupportedOpcode.
Log entry 7. -/
def whenLdst (s : State) (f : State → Result) : Result :=
  match s.cfg.ldst with
  | .unsupported => takeFault .unsupportedOpcode s
  | .implemented => f s

/-- R162: `x[a] <- MemRead(x[b], 1)`. -/
def execLd (a b : Byte) (s : State) : Result :=
  whenLdst s fun s => withRegs a b s fun i j => .next (s.setReg i (s.memRead (s.reg j)))

/-- R163: `MemWrite(x[a], 1, x[b])`. -/
def execSt (a b : Byte) (s : State) : Result :=
  whenLdst s fun s => withRegs a b s fun i j => .next (s.memWrite (s.reg i) (s.reg j))

end Sys2Proof.Machine
end

