-- ==== Sys2Proof/Machine/Halt.lean ====
section
/-! DEFINITION. HLT (spec/45_halt.md). -/

namespace Sys2Proof.Machine

/-- R220: `run <- HALTED`. The loop's pc update still follows (R106). -/
def execHlt (s : State) : Result := .next (s.setRun .halted)

end Sys2Proof.Machine
end

