-- ==== Sys2Proof/Machine/Stack.lean ====
section
/-! DEFINITION. PUSH, POP, CALL and RET (spec/43_stack_subroutine.md), each in the statement order the spec gives, which
decides what an operand that names R7 sees (D21). Nothing checks the stack (R185). -/

namespace Sys2Proof.Machine

/-- R181: SP down, then `x[r]`, read after that, stored at SP. -/
def execPush (r : Byte) (s : State) : Result :=
  withReg r s fun i => .next (s.decSp.memWrite s.decSp.sp (s.decSp.reg i))

/-- The state after POP's first write, `x[r] <- MemRead(x[7], 1)` (R182). -/
def State.loadTop (s : State) (i : Fin 8) : State := s.setReg i (s.memRead s.sp)

/-- R182: the top byte into `x[r]`, then SP up. -/
def execPop (r : Byte) (s : State) : Result :=
  withReg r s fun i => .next (s.loadTop i).incSp

/-- R183: the address CALL pushes, that of the instruction after it. An instruction executes only at pc <= 253 (R101),
so it fits a byte (log entry 9). -/
def State.returnAddress (s : State) : Byte := trunc8 ((s.pc : Int) + 2)

/-- R183: SP down, the return address stored at SP, then pc from `x[r]`, read after that. -/
def execCall (r : Byte) (s : State) : Result :=
  withReg r s fun i =>
    .next ((s.decSp.memWrite s.decSp.sp s.returnAddress).setPc (s.decSp.reg i).toNat)

/-- R184: pc from the byte at SP, then SP up. -/
def execRet (s : State) : Result := .next (s.setPc (s.memRead s.sp).toNat).incSp

end Sys2Proof.Machine
end

