-- ==== Sys2Proof/Machine/Loop.lean ====
section
/-! DEFINITION. The parts of the fetch-decode-execute loop that stand around an instruction's own operation
(spec/40_loop.md): the fetch, the faults of dispatch, and the pc update. -/

namespace Sys2Proof.Machine

/-- R101: the three bytes at pc, pc + 1 and pc + 2, the addresses checked in that order; nothing if one of them is
above 255. -/
def fetchWindow (s : State) : Option Window :=
  match s.memReadAt? s.pc, s.memReadAt? (s.pc + 1), s.memReadAt? (s.pc + 2) with
  | some ir, some opA, some opB => some { ir := ir, opA := opA, opB := opB }
  | _, _, _ => none

/-- R82, R103: the fault of a byte that selects no instruction. -/
def rejectKind : DecodeReject → FaultKind
  | .unsupportedOpcode => .unsupportedOpcode
  | .unsupportedAluOp => .unsupportedAluOp

/-- R106, R107: the pc update after an operation that did not fault: `pc + 1 + AA`, without wrap-around (R30), when
C = 0; none when C = 1. A fault stops the loop before it. -/
def completeStep (ir : Byte) (t : State) : State :=
  match t.run with
  | .faulted _ => t
  | .running | .halted =>
    if (decodeFields ir).pcSet then t else t.setPc (t.pc + instrLength ir)

/-- The pc update on the outcome of an operation. -/
def completeResult (ir : Byte) : Result → Result
  | .next t => .next (completeStep ir t)
  | .fault r => .fault r
  | .refused r => .refused r

end Sys2Proof.Machine
end

