-- ==== Sys2Proof/Machine/Step.lean ====
section
/-! DEFINITION. One step of the machine (R100 to R108 of spec/40_loop.md). -/

namespace Sys2Proof.Machine

/-- R108: fetch, decode, dispatch, execute, pc update. -/
def stepRunning (s : State) : Host.Outcome State Fault Refusal :=
  match fetchWindow s with
  | none => takeFault .addressOutOfRange s
  | some w =>
    match decode s.cfg.table w with
    | .error e => takeFault (rejectKind e) s
    | .ok i => completeResult w.ir (exec i s)

/-- R100, R39: a step when run = RUNNING; "has no effect otherwise" (log entry 6). A table that breaks R79 is refused
(log entry 8). -/
def step (s : State) : Host.Outcome State Fault Refusal :=
  match s.run with
  | .running => if s.cfg.table.conforms then stepRunning s else .refused .nonConformingTable
  | .halted | .faulted _ => .next s

/-- The word of an instruction stored where `step` fetches next, at pc, pc + 1 and pc + 2, the bits above `nbits` 0. A
step fetches only in a running state with pc <= 253; outside that there is no place to store it, and the state is
unchanged. Log entry 10. -/
def State.withFetchWord (s : State) (nbits w : Nat) : State :=
  if s.pc + 2 ≤ 255 then
    { s with mem :=
        ((s.mem.write s.pc (windowOfTableWord nbits w).ir).write (s.pc + 1)
          (windowOfTableWord nbits w).opA).write (s.pc + 2) (windowOfTableWord nbits w).opB }
  else s

end Sys2Proof.Machine
end

