-- ==== Sys2Proof/Machine/HostPort.lean ====
section
/-! DEFINITION. What the host does to the core and reads from it (R39 of spec/10_state.md, R276, R277 and R279 of
spec/70_reset_and_hazards.md). The step port is `step`. -/

namespace Sys2Proof.Machine

/-- Bytes written at rising addresses from `a` on. -/
def Memory.load (m : Memory) (a : Nat) : List Byte → Memory
  | [] => m
  | v :: vs => Memory.load (Memory.write m a v) (a + 1) vs

/-- R276: construction, then the load of an image from address 0; an image of more than 256 bytes has no launch. Load
comes only here, between construction and the first step (R279). -/
def launch (c : Config) (image : List Byte) : Option State :=
  if image.length ≤ 256 then
    some { State.resetWith c with mem := Memory.load [] 0 image }
  else none

/-- R277: the built-in default program: load 8 into register 0, print register 0, halt. -/
def defaultImage (t : OpcodeTable) : List Byte :=
  encode t (.ldi 0 8) ++ encode t (.prn 0) ++ encode t .hlt

/-- R277, R248: the image the host loads, the default program where the image could not be read. -/
def imageOrDefault (t : OpcodeTable) (image : Option (List Byte)) : List Byte :=
  image.getD (defaultImage t)

/-- R241: the code of a fault kind. The numbers are labels of the spec's own (D19). -/
def FaultKind.code : FaultKind → Nat
  | .unsupportedOpcode => 1
  | .unsupportedAluOp => 2
  | .divideByZero => 3
  | .addressOutOfRange => 4
  | .registerIndexOutOfRange => 5

/-- R39: the status port, the run state with its fault kind. -/
def State.status (s : State) : RunState := s.run

/-- The code of the recorded fault, if there is one (R241, R242). -/
def State.faultCode (s : State) : Option Nat :=
  match s.run with
  | .faulted k => some k.code
  | .running | .halted => none

/-- R39: the output port. -/
def State.output (s : State) : List Byte := s.out

end Sys2Proof.Machine
end

