-- ==== Sys2Proof/Safety.lean ====
section
/-! DEFINITION. The terms in which statements about the machine are made: what a change leaves alone, what a fault
leaves behind, the invariant of the machine, which instruction a step runs, which fault a step should record, and
how a run ends. Nothing the machine does depends on this file. -/

namespace Sys2Proof.Machine

/-! ## What is left unchanged -/

/-- From `s` to `t`, every register outside `rs` and every byte of memory outside `cs` is unchanged, and so are the
parameters. -/
structure Frame (rs : List (Fin 8)) (cs : List Byte) (s t : State) : Prop where
  regs : ∀ j, j ∉ rs → t.reg j = s.reg j
  mem : ∀ a, a ∉ cs → t.memRead a = s.memRead a
  cfg : t.cfg = s.cfg

/-- From `s` to `t`, FL, pc, the run state and the output channel are unchanged. -/
structure Quiet (s t : State) : Prop where
  fl : t.fl = s.fl
  pc : t.pc = s.pc
  run : t.run = s.run
  out : t.out = s.out

/-- R243: `t` is `s` after a fault of kind `k`: only the run state changed. -/
structure FaultedFrom (k : FaultKind) (s t : State) : Prop where
  run : t.run = .faulted k
  frame : Frame [] [] s t
  fl : t.fl = s.fl
  pc : t.pc = s.pc
  out : t.out = s.out

/-- The instruction raises `k` in `s`. -/
def RaisesFault (k : FaultKind) (i : Instr) (s : State) : Prop :=
  ∃ t, exec i s = .next t ∧ FaultedFrom k s t

/-- The step from `s` raises `k`. -/
def StepFaults (k : FaultKind) (s : State) : Prop :=
  ∃ t, step s = .next t ∧ FaultedFrom k s t

/-! ## What a step runs -/

/-- A step from `s` fetches the window `w` and dispatches to `i` (R101 to R103). -/
structure Dispatches (s : State) (w : Window) (i : Instr) : Prop where
  running : s.run = .running
  conforms : s.cfg.table.conforms = true
  fetched : fetchWindow s = some w
  decoded : decode s.cfg.table w = .ok i

/-- An outcome with its next state, if it has one, changed by `f`. -/
def mapNext (f : State → State) : Result → Result
  | .next t => .next (f t)
  | .fault r => .fault r
  | .refused r => .refused r

end Sys2Proof.Machine

namespace Sys2Proof

open Sys2Proof.Machine

/-! ## Which registers are written, which operands are used -/

/-- R28: the registers an instruction may write. -/
def Instr.writtenRegisters : Instr → List (Fin 8)
  | .ldi r _ | .inc r | .dec r | .not r => (regIndex? r).toList
  | .ld a _ | .add a _ | .sub a _ | .mul a _ | .div a _ | .mod a _ | .and a _ | .or a _ | .xor a _ | .shl a _
  | .shr a _ => (regIndex? a).toList
  | .pop r => (regIndex? r).toList ++ [7]
  | .push _ | .call _ | .ret => [7]
  | .cmp _ _ | .prn _ | .st _ _ | .jmp _ | .jeq _ | .jne _ | .jgt _ | .jlt _ | .jle _ | .jge _ | .hlt => []

/-- R200, R208: the condition of a jump; a jump that has none is always taken. -/
def Instr.jumpTaken (i : Instr) (s : State) : Bool :=
  match i with
  | .jeq _ => s.flagE
  | .jne _ => !s.flagE
  | .jgt _ => s.flagG
  | .jlt _ => s.flagL
  | .jle _ => s.flagL || s.flagE
  | .jge _ => s.flagG || s.flagE
  | _ => true

/-- R34: the conditional jumps. -/
def Instr.isConditionalJump : Instr → Bool
  | .jeq _ | .jne _ | .jgt _ | .jlt _ | .jle _ | .jge _ => true
  | _ => false

/-- R246: the operand bytes an instruction uses as register indices on the path it takes. -/
def Instr.usedIndices (i : Instr) (s : State) : List Byte :=
  if i.jumpTaken s then i.registerOperands else []

/-- R125, R126: the operand byte that names the divisor. -/
def Instr.divisor? : Instr → Option Byte
  | .div _ b | .mod _ b => some b
  | _ => none

/-! ## Which fault a step should record -/

/-- R249 points 2 to 4, for an instruction whose byte is in the table: the first check that fails. -/
def Instr.expectedFault (i : Instr) (s : State) : Option FaultKind :=
  if (i.op = .ld ∨ i.op = .st) ∧ s.cfg.ldst = .unsupported then some .unsupportedOpcode
  else if ∃ b ∈ i.usedIndices s, 7 < b.toNat then some .registerIndexOutOfRange
  else if ∃ b ∈ i.divisor?, ∃ j ∈ regIndex? b, s.reg j = 0 then some .divideByZero
  else none

end Sys2Proof

namespace Sys2Proof.Machine

/-- R249: the first check that fails in the step from `s`. -/
def State.expectedFault (s : State) : Option FaultKind :=
  if 255 < s.pc ∨ 255 < s.pc + 1 ∨ 255 < s.pc + 2 then some .addressOutOfRange
  else
    match s.cfg.table.lookup (s.mem.read s.pc) with
    | none => if (s.mem.read s.pc).getLsbD 5 then some .unsupportedAluOp else some .unsupportedOpcode
    | some o => (Instr.ofOp o (s.mem.read (s.pc + 1)) (s.mem.read (s.pc + 2))).expectedFault s

/-! ## Shapes of an instruction's rule

Values are compared as numbers in [0, 255], which is how the rules' pseudocode states them (R11). -/

/-- Format RR of the default table: the byte `ir` and two register operands (R73, R78). -/
def EncodedRR (ir : Byte) (i : Byte → Byte → Instr) : Prop :=
  ∀ a b, decode OpcodeTable.default ⟨ir, a, b⟩ = .ok (i a b) ∧ encode OpcodeTable.default (i a b) = [ir, a, b]

/-- Format R of the default table: the byte `ir` and one register operand; the byte after it is ignored (R77). -/
def EncodedR (ir : Byte) (i : Byte → Instr) : Prop :=
  ∀ r x, decode OpcodeTable.default ⟨ir, r, x⟩ = .ok (i r) ∧ encode OpcodeTable.default (i r) = [ir, r]

/-- Format N of the default table: the byte `ir` alone. -/
def EncodedN (ir : Byte) (i : Instr) : Prop :=
  ∀ x y, decode OpcodeTable.default ⟨ir, x, y⟩ = .ok i ∧ encode OpcodeTable.default i = [ir]

/-- The instruction completes, writes `f` of its two operands to the first register, and changes nothing else. -/
def WritesBinary (i : Byte → Byte → Instr) (f : Nat → Nat → Nat) : Prop :=
  ∀ (s : State) (a b : Byte) (ra rb : Fin 8), a.toNat = ra.val → b.toNat = rb.val →
    ∃ t, exec (i a b) s = .next t ∧ (t.reg ra).toNat = f (s.reg ra).toNat (s.reg rb).toNat ∧
      Frame [ra] [] s t ∧ Quiet s t

/-- As `WritesBinary`, where the second operand is not 0. -/
def WritesQuotient (i : Byte → Byte → Instr) (f : Nat → Nat → Nat) : Prop :=
  ∀ (s : State) (a b : Byte) (ra rb : Fin 8), a.toNat = ra.val → b.toNat = rb.val → s.reg rb ≠ 0 →
    ∃ t, exec (i a b) s = .next t ∧ (t.reg ra).toNat = f (s.reg ra).toNat (s.reg rb).toNat ∧
      Frame [ra] [] s t ∧ Quiet s t

/-- The instruction completes, writes `f` of its operand to the register, and changes nothing else. -/
def WritesUnary (i : Byte → Instr) (f : Nat → Nat) : Prop :=
  ∀ (s : State) (a : Byte) (ra : Fin 8), a.toNat = ra.val →
    ∃ t, exec (i a) s = .next t ∧ (t.reg ra).toNat = f (s.reg ra).toNat ∧ Frame [ra] [] s t ∧ Quiet s t

/-- RegisterIndexOutOfRange where one of the two operand bytes is above 7, whatever else is wrong. -/
def ChecksTwoIndices (i : Byte → Byte → Instr) : Prop :=
  ∀ (s : State) (a b : Byte), 7 < a.toNat ∨ 7 < b.toNat → RaisesFault .registerIndexOutOfRange (i a b) s

/-- RegisterIndexOutOfRange where the operand byte is above 7. -/
def ChecksIndex (i : Byte → Instr) : Prop :=
  ∀ (s : State) (r : Byte), 7 < r.toNat → RaisesFault .registerIndexOutOfRange (i r) s

/-- The jump completes with pc = `target`, and nothing but pc changes. -/
def JumpsTo (i : Instr) (s : State) (target : Nat) : Prop :=
  ∃ t, exec i s = .next t ∧ t.pc = target ∧ Frame [] [] s t ∧ t.fl = s.fl ∧ t.run = s.run ∧ t.out = s.out

/-- A jump taken exactly when `c` holds: taken, pc is the register's value, and a byte above 7 faults; not taken, pc
advances by 2 whatever the operand byte is. -/
def JumpsWhen (i : Byte → Instr) (c : State → Prop) : Prop :=
  ∀ (s : State) (r : Byte),
    (∀ j : Fin 8, c s → r.toNat = j.val → JumpsTo (i r) s (s.reg j).toNat) ∧
    (c s → 7 < r.toNat → RaisesFault .registerIndexOutOfRange (i r) s) ∧
    (¬ c s → JumpsTo (i r) s (s.pc + 2))

/-! ## The invariant -/

/-- What holds of every state a run can reach: the table is one of this hardware (R79), pc is in [0, 256] (R30), at
most one flag is set and bits 7:3 of FL are 0 (R32, R35), and memory is in its canonical form. -/
structure State.Inv (s : State) : Prop where
  table : s.cfg.table.conforms = true
  pc : s.pc ≤ 256
  flags : legalFlags s.fl = true
  mem : s.mem.wf = true

/-! ## How a run ends -/

/-- R221: the clean end, a HALTED state after some number of steps. -/
def EndsClean (s : State) : Prop :=
  ∃ n t, Sys2Proof.core.run n s = .next t ∧ t.run = .halted

/-- R221: the abnormal end, a FAULTED state after some number of steps. -/
def EndsFaulted (s : State) : Prop :=
  ∃ n t k, Sys2Proof.core.run n s = .next t ∧ t.run = .faulted k

/-- R112: the run never ends: it is RUNNING after every number of steps. -/
def NeverEnds (s : State) : Prop :=
  ∀ n, ∃ t, Sys2Proof.core.run n s = .next t ∧ t.run = .running

end Sys2Proof.Machine
end

