-- ==== Sys2Proof/Certificates/Slice0/Obligations.lean ====
section
/-! DEFINITION. The statements for the provers. Each docstring names the rules of spec/ it formalises, and what in it
is a choice of the spec's writer (a decision D<n>) or of the model (a log entry). -/

open Sys2Proof Sys2Proof.Machine

/-! ## Encoding and decoding -/

/-- R71: the four fields are bits 7:6, 5, 4 and 3:0 of the byte, as numbers, for every byte; and no conforming table
has a row with operand count 3, so such a byte is rejected. -/
def Obligations.OpcodeByteFieldsAreItsBits : Prop :=
  (∀ b : Byte,
    b.toNat = 64 * (decodeFields b).operandCount + 32 * (decodeFields b).alu.toNat
      + 16 * (decodeFields b).pcSet.toNat + (decodeFields b).opcodeId.toNat) ∧
  ∀ (t : OpcodeTable) (w : Window), t.conforms = true → (decodeFields w.ir).operandCount = 3 →
    ∃ e, decode t w = .error e

/-- R72: an instruction's encoding has 1 + operand_count bytes by its first byte alone, and that is 1, 2 or 3. -/
def Obligations.EncodingLengthIsOnePlusOperandCount : Prop :=
  ∀ (t : OpcodeTable) (i : Instr), t.conforms = true →
    (encode t i).length = instrLength (t.byteOf i.op) ∧ (encode t i).head? = some (t.byteOf i.op) ∧
      1 ≤ instrLength (t.byteOf i.op) ∧ instrLength (t.byteOf i.op) ≤ 3

/-- A few words written from R73 and R78 (95_test_vectors.md section 2.1) decode to the instructions they stand for. -/
def Obligations.SpecWordsDecode : Prop :=
  decodeTableWord 24 0x080082 = some (.ldi 0 8) ∧ decodeTableWord 16 0x0047 = some (.prn 0) ∧
  decodeTableWord 8 0x01 = some .hlt ∧ decodeTableWord 8 0x11 = some .ret ∧
  decodeTableWord 16 0x035A = some (.jge 3) ∧ decodeTableWord 16 0x0069 = some (.not 0) ∧
  decodeTableWord 24 0x0100AB = some (.xor 0 1) ∧ decodeTableWord 8 0x00 = none ∧
  decodeTableWord 24 0x0100AE = none ∧ decodeTableWord 24 0x0100B0 = none

/-- R79: a table conforms exactly when it meets the five constraints. That INC, DEC and NOT may take 1 or 2 in a table
other than the default is the model's reading of point 1 (log entry 4). -/
def Obligations.ConformingTablesMeetTheConstraints : Prop :=
  ∀ t : OpcodeTable, t.conforms = true ↔
    (∀ o ∈ [Op.hlt, .ret], (decodeFields (t.byteOf o)).operandCount = 0) ∧
    (∀ o ∈ [Op.prn, .push, .pop, .call, .jmp, .jeq, .jne, .jgt, .jlt, .jle, .jge],
      (decodeFields (t.byteOf o)).operandCount = 1) ∧
    (∀ o ∈ [Op.ldi, .ld, .st, .add, .sub, .mul, .div, .mod, .and, .or, .xor, .shl, .shr, .cmp],
      (decodeFields (t.byteOf o)).operandCount = 2) ∧
    (∀ o ∈ [Op.inc, .dec, .not],
      (decodeFields (t.byteOf o)).operandCount = 1 ∨ (decodeFields (t.byteOf o)).operandCount = 2) ∧
    (∀ o, (decodeFields (t.byteOf o)).alu = true ↔
      o ∈ [Op.add, .sub, .mul, .div, .mod, .inc, .dec, .and, .or, .xor, .not, .shl, .shr, .cmp]) ∧
    (∀ o, (decodeFields (t.byteOf o)).pcSet = true ↔
      o ∈ [Op.call, .ret, .jmp, .jeq, .jne, .jgt, .jlt, .jle, .jge]) ∧
    (∀ o p, t.byteOf o = t.byteOf p → o = p) ∧
    t.byteOf .xor = 0b10101011

/-- R80: the default table conforms. -/
def Obligations.DefaultTableConforms : Prop :=
  OpcodeTable.default.conforms = true

/-- R79, last sentence: a running machine whose table breaks the constraints is refused. -/
def Obligations.NonConformingTableIsRefused : Prop :=
  ∀ s : State, s.run = .running → s.cfg.table.conforms = false → step s = .refused .nonConformingTable

/-- R81: a byte selects an instruction if and only if it is that instruction's byte in the table; the id alone does not:
in the default table HLT and RET share an id, and so do PUSH, JEQ and INC, and each byte selects its own. -/
def Obligations.DispatchIsKeyedOnTheWholeByte : Prop :=
  (∀ (t : OpcodeTable) (w : Window), t.conforms = true →
    ∀ o, (∃ i : Instr, decode t w = .ok i ∧ i.op = o) ↔ w.ir = t.byteOf o) ∧
  (decodeFields 0x01).opcodeId = 0b0001 ∧ (decodeFields 0x11).opcodeId = 0b0001 ∧
  (decodeFields 0x45).opcodeId = 0b0101 ∧ (decodeFields 0x55).opcodeId = 0b0101 ∧
  (decodeFields 0x65).opcodeId = 0b0101 ∧
  OpcodeTable.default.lookup 0x01 = some .hlt ∧ OpcodeTable.default.lookup 0x11 = some .ret ∧
  OpcodeTable.default.lookup 0x45 = some .push ∧ OpcodeTable.default.lookup 0x55 = some .jeq ∧
  OpcodeTable.default.lookup 0x65 = some .inc

/-- R73, R75 and R76: decoding the encoding of any instruction, with any operand bytes, in any conforming table, and
whatever bytes follow it, gives the instruction back. -/
def Obligations.DecodeOfEncodeIsTheInstruction : Prop :=
  ∀ (t : OpcodeTable) (i : Instr) (tail : List Byte), t.conforms = true →
    decode t (windowOf (encode t i ++ tail)) = .ok i

/-- R72 and R77: where INC, DEC and NOT take one operand byte, as in the default table, the encoding of a decoded
instruction is exactly the bytes it was decoded from. -/
def Obligations.EncodeOfDecodeIsTheBytes : Prop :=
  ∀ (t : OpcodeTable) (w : Window) (i : Instr), t.conforms = true →
    (∀ o ∈ [Op.inc, .dec, .not], (decodeFields (t.byteOf o)).operandCount = 1) →
    decode t w = .ok i → encode t i = [w.ir, w.opA, w.opB].take (instrLength w.ir)

/-- R82: a byte that is no row of the table ends the run at dispatch, UnsupportedAluOp if bit 5 is 1, else
UnsupportedOpcode; bytes with AA = 3 and bytes with both B and C are in no conforming table; in the default table 226
bytes are in no row, 0x00 among them, and 228 with LD and ST counted, whose instructions raise UnsupportedOpcode when
LDST_SUPPORT is unsupported. -/
def Obligations.IllegalBytesEndTheRun : Prop :=
  (∀ (s : State) (w : Window), s.run = .running → s.cfg.table.conforms = true → fetchWindow s = some w →
    (∀ o, s.cfg.table.byteOf o ≠ w.ir) →
    StepFaults (if w.ir.getLsbD 5 then .unsupportedAluOp else .unsupportedOpcode) s) ∧
  (∀ (t : OpcodeTable) (b : Byte), t.conforms = true →
    (decodeFields b).operandCount = 3 ∨ ((decodeFields b).alu = true ∧ (decodeFields b).pcSet = true) →
    ∀ o, t.byteOf o ≠ b) ∧
  (∀ o, OpcodeTable.default.byteOf o ≠ 0x00) ∧
  ((List.range 256).filter fun n => (OpcodeTable.default.lookup (BitVec.ofNat 8 n)).isNone).length = 226 ∧
  ((List.range 256).filter fun n =>
    (OpcodeTable.default.lookup (BitVec.ofNat 8 n)).all fun o => o == .ld || o == .st).length = 228 ∧
  (∀ (s : State) (a b : Byte), s.cfg.ldst = .unsupported →
    RaisesFault .unsupportedOpcode (.ld a b) s ∧ RaisesFault .unsupportedOpcode (.st a b) s)

/-! ## Reset and the host -/

/-- R41: after reset pc = 0 and FL = 0, so E = G = L = 0 and bits 7:3 are 0. -/
def Obligations.ResetClearsPcAndFlags : Prop :=
  State.reset.pc = 0 ∧ State.reset.fl = 0 ∧ State.reset.flagE = false ∧ State.reset.flagG = false ∧
    State.reset.flagL = false ∧ State.reset.fl.extractLsb' 3 5 = 0

/-- R271, R40, R42, R52: the reset value of every other piece of state, for any parameters. That R0 to R6 are 0 is the
spec's decision D7; that the reset parameters are the defaults of R9 is log entry 2. -/
def Obligations.ResetStateHasTheStatedValues : Prop :=
  (∀ c : Config, (State.resetWith c).cfg = c ∧
    (∀ j : Fin 8, (State.resetWith c).reg j = if j = 7 then 0xF4 else 0x00) ∧
    (∀ a, (State.resetWith c).memRead a = 0x00) ∧ (State.resetWith c).pc = 0 ∧ (State.resetWith c).fl = 0 ∧
    (State.resetWith c).run = .running ∧ (State.resetWith c).out = []) ∧
  State.reset = State.resetWith ⟨OpcodeTable.default, .unsupported⟩

/-- R276: the launch of an image of at most 256 bytes puts byte i at address i and 0 everywhere else, in a state
otherwise as reset leaves it; a longer image has no launch (the spec's decision D20). -/
def Obligations.LaunchPlacesTheImageFromZero : Prop :=
  ∀ (c : Config) (image : List Byte),
    (image.length ≤ 256 → ∃ s, launch c image = some s ∧
      (∀ a : Byte, s.memRead a = image.getD a.toNat 0) ∧
      (∀ j, s.reg j = (State.resetWith c).reg j) ∧ s.mem.wf = true ∧ Quiet (State.resetWith c) s ∧ s.cfg = c) ∧
    (256 < image.length → launch c image = none)

/-- R277: the default program of the default table is the six bytes of LDI R0,8; PRN R0; HLT, and stands in for an image
that cannot be read. The byte values are the spec's general knowledge (K4). -/
def Obligations.DefaultProgramIsSixBytes : Prop :=
  imageOrDefault OpcodeTable.default none = [0x82, 0x00, 0x08, 0x47, 0x00, 0x01] ∧
  ∀ (t : OpcodeTable) (image : List Byte), imageOrDefault t (some image) = image

/-! ## Memory -/

/-- R61, R59: in memory of canonical form, a read gives the most recent write to the address, a write touches no other
address, and the form is kept. -/
def Obligations.ReadGivesTheLatestWrite : Prop :=
  ∀ (s : State) (a v x : Byte), s.mem.wf = true →
    (s.memWrite a v).memRead a = v ∧ (x ≠ a → (s.memWrite a v).memRead x = s.memRead x) ∧
      (s.memWrite a v).mem.wf = true

/-- R58, R62: the next fetch sees a byte written anywhere in its window, an instruction byte included. -/
def Obligations.FetchSeesWrittenBytes : Prop :=
  ∀ (s : State) (a v : Byte), s.mem.wf = true → s.pc ≤ 253 → ∃ w, fetchWindow s = some w ∧
    fetchWindow (s.memWrite a v) =
      some ⟨if a.toNat = s.pc then v else w.ir, if a.toNat = s.pc + 1 then v else w.opA,
        if a.toNat = s.pc + 2 then v else w.opB⟩

/-! ## The loop -/

/-- R101, R55: for pc <= 253 the fetch reads the bytes at pc, pc + 1 and pc + 2. -/
def Obligations.FetchReadsThreeConsecutiveBytes : Prop :=
  ∀ s : State, s.pc ≤ 253 →
    fetchWindow s = some ⟨s.memRead (BitVec.ofNat 8 s.pc), s.memRead (BitVec.ofNat 8 (s.pc + 1)),
      s.memRead (BitVec.ofNat 8 (s.pc + 2))⟩

/-- R101, R245 (decision D3): a step at pc above 253 raises AddressOutOfRange, whatever the bytes there are, and a step
at pc <= 253 never does. -/
def Obligations.FetchAboveTheTopFaults : Prop :=
  ∀ s : State, s.run = .running → s.cfg.table.conforms = true →
    (253 < s.pc → StepFaults .addressOutOfRange s) ∧
    (s.pc ≤ 253 → ∃ t, step s = .next t ∧ t.run ≠ .faulted .addressOutOfRange)

/-- R103 to R108: where a step dispatches to `i`, it is exec of `i`, then the loop's pc update, `pc + 1 + AA` when C = 0
and none when C = 1; a fault stops before the update. -/
def Obligations.StepRunsTheDecodedInstruction : Prop :=
  ∀ (s : State) (w : Window) (i : Instr), s.run = .running → s.cfg.table.conforms = true →
    fetchWindow s = some w → decode s.cfg.table w = .ok i →
    ∃ t, exec i s = .next t ∧
      ((∃ k, t.run = .faulted k) ∨ (decodeFields w.ir).pcSet = true → step s = .next t) ∧
      ((∀ k, t.run ≠ .faulted k) → (decodeFields w.ir).pcSet = false →
        step s = .next { t with pc := t.pc + 1 + (decodeFields w.ir).operandCount })

/-- R106: after an operation that does not fault, pc is the old pc + 1 + n when C = 0, without wrap-around, and what the
handler left when C = 1; HLT's step included. -/
def Obligations.PcAdvancesByLengthUnlessSet : Prop :=
  ∀ (s t : State) (w : Window) (i : Instr), Dispatches s w i → step s = .next t →
    (∀ k, t.run ≠ .faulted k) →
    ((decodeFields w.ir).pcSet = false → t.pc = s.pc + 1 + (decodeFields w.ir).operandCount) ∧
    ((decodeFields w.ir).pcSet = true → ∃ u, exec i s = .next u ∧ t.pc = u.pc)

/-- R100, R26, R39: with a conforming table every step has a next state; from HALTED and FAULTED nothing ever changes,
after any number of steps. That a step port used there answers the same state is log entry 6. -/
def Obligations.EveryStepHasANextState : Prop :=
  ∀ s : State, s.cfg.table.conforms = true →
    (∃ t, step s = .next t) ∧ (s.run ≠ .running → ∀ n, Sys2Proof.core.run n s = .next s)

/-- The meaning of every instruction answers a next state, in every state and for all operand bytes (R240, R243: a fatal
error is a value of the run state; log entry 5). -/
def Obligations.EveryInstructionHasANextState : Prop :=
  ∀ (i : Instr) (s : State), ∃ t, exec i s = .next t

/-- R220, R26: a step of a running machine ends HALTED if and only if the instruction it dispatches to is HLT. -/
def Obligations.OnlyHltHalts : Prop :=
  ∀ s t : State, s.run = .running → s.cfg.table.conforms = true → step s = .next t →
    (t.run = .halted ↔ ∃ w, Dispatches s w .hlt)

/-- R112: a JMP whose register holds the JMP's own address runs forever, neither HALTED nor FAULTED. -/
def Obligations.JumpToItselfNeverEnds : Prop :=
  ∀ (s : State) (w : Window) (r : Byte) (j : Fin 8), Dispatches s w (.jmp r) → r.toNat = j.val →
    (s.reg j).toNat = s.pc →
    (∀ n, Sys2Proof.core.run n s = .next s) ∧ NeverEnds s ∧ ¬ EndsClean s ∧ ¬ EndsFaulted s

/-! ## Faults -/

/-- R243 (decision D5): a step that raises a fault writes nothing but the run state. -/
def Obligations.FaultsArePrecise : Prop :=
  ∀ (s t : State) (k : FaultKind), s.run = .running → step s = .next t → t.run = .faulted k →
    FaultedFrom k s t ∧ t.mem = s.mem

/-- R249, R246, R247 (decisions D4, D15): a running step records exactly the first check that fails, in the order fetch
range, dispatch, register indices used on the path taken, divisor; and where none fails it does not fault. -/
def Obligations.FirstFailedCheckIsTheFault : Prop :=
  ∀ s : State, s.run = .running → s.cfg.table.conforms = true →
    match s.expectedFault with
    | some k => StepFaults k s
    | none => ∃ t, step s = .next t ∧ ∀ k, t.run ≠ .faulted k

/-- R278, R246: a well-formed instruction never raises RegisterIndexOutOfRange. -/
def Obligations.WellFormedInstructionsNameRegisters : Prop :=
  ∀ (i : Instr) (s : State), i.wellFormed = true → s.run = .running →
    ∃ t, exec i s = .next t ∧ t.run ≠ .faulted .registerIndexOutOfRange

/-! ## Invariants and whole-machine rules -/

/-- Every step keeps the invariant: the table conforms, pc is in [0, 256] (R30), FL has at most one of its three bits
and no other (R32, R35), memory is in canonical form. -/
def Obligations.StepKeepsTheInvariant : Prop :=
  ∀ s t : State, s.Inv → step s = .next t → t.Inv

/-- The invariant holds at reset, and after any launch with a conforming table. -/
def Obligations.ResetAndLaunchMeetTheInvariant : Prop :=
  State.reset.Inv ∧
  ∀ (c : Config) (image : List Byte) (s : State), c.table.conforms = true → launch c image = some s → s.Inv

/-- R33: FL is written only by CMP, which makes exactly one of E, G, L 1 and everything else in FL 0; no other
instruction and no fault writes it. -/
def Obligations.OnlyCmpWritesFlags : Prop :=
  ∀ s t : State, step s = .next t →
    (t.fl ≠ s.fl → ∃ w a b, Dispatches s w (.cmp a b)) ∧
    (∀ w a b, Dispatches s w (.cmp a b) → (∀ k, t.run ≠ .faulted k) →
      (t.flagE = true ∧ t.fl = 0b001) ∨ (t.flagG = true ∧ t.fl = 0b010) ∨ (t.flagL = true ∧ t.fl = 0b100))

/-- R34: FL is read only by the conditional jumps: with another FL value every other instruction answers the same state
but for FL, and FL is either written to the same value in both or left as it was in both. -/
def Obligations.OnlyConditionalJumpsReadFlags : Prop :=
  ∀ (i : Instr) (s : State) (f : Byte), i.isConditionalJump = false →
    ∃ t u, exec i s = .next t ∧ exec i (s.setFl f) = .next u ∧ u = t.setFl u.fl ∧
      (u.fl = t.fl ∨ (t.fl = s.fl ∧ u.fl = f))

/-- R28: an instruction changes no register but those the rule lists for it. -/
def Obligations.OnlyListedRegistersAreWritten : Prop :=
  ∀ (i : Instr) (s t : State), exec i s = .next t → ∀ j, j ∉ i.writtenRegisters → t.reg j = s.reg j

/-- R53: memory is changed only by PUSH and CALL, at the decremented SP, and by ST, at the address in its first
register and only when LDST_SUPPORT is implemented. -/
def Obligations.OnlyStoresWriteMemory : Prop :=
  ∀ (i : Instr) (s t : State), s.mem.wf = true → exec i s = .next t → ∀ x, t.memRead x ≠ s.memRead x →
    ((∃ r, i = .push r ∨ i = .call r) ∧ x = s.decSp.sp) ∨
    (∃ a b ra, i = .st a b ∧ regIndex? a = some ra ∧ x = s.reg ra ∧ s.cfg.ldst = .implemented)

/-- R27: no instruction reads the output channel: bytes put before it change nothing else in a step. -/
def Obligations.StepIgnoresEarlierOutput : Prop :=
  ∀ (s : State) (p : List Byte),
    step { s with out := p ++ s.out } = mapNext (fun t => { t with out := p ++ t.out }) (step s)

/-- R27, R161: the output channel only grows, by one byte, and only by PRN, which appends its register. -/
def Obligations.OnlyPrnEmits : Prop :=
  ∀ (i : Instr) (s t : State), exec i s = .next t → t.out ≠ s.out →
    ∃ r j, i = .prn r ∧ regIndex? r = some j ∧ t.out = s.out ++ [s.reg j]

/-- R21: the parameters are not state a step changes. -/
def Obligations.StepKeepsTheParameters : Prop :=
  ∀ s t : State, step s = .next t → t.cfg = s.cfg

/-! ## The ALU -/

/-- R122, R123, R124: ADD, SUB and MUL write the sum, difference and product modulo 256 to the first register and change
nothing else, and fault on an operand byte above 7. The bytes are the default table's (D1, K2). -/
def Obligations.AddSubMulWrapModulo256 : Prop :=
  (EncodedRR 0xA0 .add ∧ WritesBinary .add (fun p q => (p + q) % 256) ∧ ChecksTwoIndices .add) ∧
  (EncodedRR 0xA1 .sub ∧ WritesBinary .sub (fun p q => (p + 256 - q) % 256) ∧ ChecksTwoIndices .sub) ∧
  (EncodedRR 0xA2 .mul ∧ WritesBinary .mul (fun p q => p * q % 256) ∧ ChecksTwoIndices .mul)

/-- R125, R126, R247: with a divisor that is not 0, DIV writes the quotient rounded down and MOD the remainder; with
divisor 0 both raise DivideByZero and write nothing; the index checks come first. -/
def Obligations.DivModDivideOrFault : Prop :=
  (EncodedRR 0xA3 .div ∧ WritesQuotient .div (fun p q => p / q) ∧ ChecksTwoIndices .div) ∧
  (EncodedRR 0xA4 .mod ∧ WritesQuotient .mod (fun p q => p % q) ∧ ChecksTwoIndices .mod) ∧
  ∀ (s : State) (a b : Byte) (ra rb : Fin 8), a.toNat = ra.val → b.toNat = rb.val → s.reg rb = 0 →
    RaisesFault .divideByZero (.div a b) s ∧ RaisesFault .divideByZero (.mod a b) s

/-- R127, R128, R132: INC and DEC wrap modulo 256, NOT is 255 - v; the byte after their encoding is ignored. -/
def Obligations.IncDecNotUseOneRegister : Prop :=
  (EncodedR 0x65 .inc ∧ WritesUnary .inc (fun p => (p + 1) % 256) ∧ ChecksIndex .inc) ∧
  (EncodedR 0x66 .dec ∧ WritesUnary .dec (fun p => (p + 255) % 256) ∧ ChecksIndex .dec) ∧
  (EncodedR 0x69 .not ∧ WritesUnary .not (fun p => 255 - p) ∧ ChecksIndex .not)

/-- R129, R130, R131: AND, OR and XOR bit by bit. -/
def Obligations.AndOrXorAreBitwise : Prop :=
  (EncodedRR 0xA8 .and ∧ WritesBinary .and (fun p q => p &&& q) ∧ ChecksTwoIndices .and) ∧
  (EncodedRR 0xAA .or ∧ WritesBinary .or (fun p q => p ||| q) ∧ ChecksTwoIndices .or) ∧
  (EncodedRR 0b10101011 .xor ∧ WritesBinary .xor (fun p q => p ^^^ q) ∧ ChecksTwoIndices .xor)

/-- R134, R135: the shift amount is the whole second register (the spec's decision D8), so from 8 on the result is 0. -/
def Obligations.ShiftsUseTheWholeAmount : Prop :=
  (EncodedRR 0xAC .shl ∧ WritesBinary .shl (fun p n => if n < 8 then p * 2 ^ n % 256 else 0) ∧
    ChecksTwoIndices .shl) ∧
  (EncodedRR 0xAD .shr ∧ WritesBinary .shr (fun p n => if n < 8 then p / 2 ^ n else 0) ∧ ChecksTwoIndices .shr)

/-- R133: CMP writes FL whole from the unsigned comparison and changes nothing else. -/
def Obligations.CmpWritesFlagsUnsigned : Prop :=
  EncodedRR 0xA7 .cmp ∧ ChecksTwoIndices .cmp ∧
  ∀ (s : State) (a b : Byte) (ra rb : Fin 8), a.toNat = ra.val → b.toNat = rb.val →
    ∃ t, exec (.cmp a b) s = .next t ∧
      ((s.reg ra).toNat = (s.reg rb).toNat → t.fl = 0b00000001) ∧
      ((s.reg ra).toNat > (s.reg rb).toNat → t.fl = 0b00000010) ∧
      ((s.reg ra).toNat < (s.reg rb).toNat → t.fl = 0b00000100) ∧
      Frame [] [] s t ∧ t.pc = s.pc ∧ t.run = s.run ∧ t.out = s.out

/-- R139: comparing (p, q) and (q, p) never both set G, never both set L, and both set E if and only if p = q. -/
def Obligations.CmpIsAntisymmetric : Prop :=
  ∀ (s s' : State) (a b : Byte) (ra rb : Fin 8), a.toNat = ra.val → b.toNat = rb.val →
    s'.reg ra = s.reg rb → s'.reg rb = s.reg ra →
    ∃ t t', exec (.cmp a b) s = .next t ∧ exec (.cmp a b) s' = .next t' ∧
      ¬ (t.flagG = true ∧ t'.flagG = true) ∧ ¬ (t.flagL = true ∧ t'.flagL = true) ∧
      ((t.flagE = true ∧ t'.flagE = true) ↔ s.reg ra = s.reg rb)

/-- R137: for a divisor that is not 0, dividend = quotient * divisor + remainder, with the remainder below the divisor. -/
def Obligations.QuotientAndRemainderRebuildTheDividend : Prop :=
  ∀ (s : State) (a b : Byte) (ra rb : Fin 8), a.toNat = ra.val → b.toNat = rb.val → s.reg rb ≠ 0 →
    ∃ t u, exec (.div a b) s = .next t ∧ exec (.mod a b) s = .next u ∧
      (s.reg ra).toNat = (t.reg ra).toNat * (s.reg rb).toNat + (u.reg ra).toNat ∧
      (u.reg ra).toNat < (s.reg rb).toNat

/-! ## Data movement -/

/-- R160: LDI loads its immediate unchanged, for every register and every immediate, and changes nothing else; its step
advances pc by 3. -/
def Obligations.LdiLoadsTheImmediate : Prop :=
  EncodedRR 0x82 .ldi ∧ (∀ imm, ChecksIndex fun r => .ldi r imm) ∧
  (∀ (s : State) (w : Window) (r imm : Byte), Dispatches s w (.ldi r imm) → r.toNat ≤ 7 →
    ∃ t, step s = .next t ∧ t.pc = s.pc + 3) ∧
  ∀ (s : State) (r imm : Byte) (j : Fin 8), r.toNat = j.val →
    ∃ t, exec (.ldi r imm) s = .next t ∧ t.reg j = imm ∧ Frame [j] [] s t ∧ Quiet s t

/-- R161 (decision D9): PRN appends its register to the output channel and changes nothing else. -/
def Obligations.PrnAppendsTheRegister : Prop :=
  EncodedR 0x47 .prn ∧ ChecksIndex .prn ∧
  ∀ (s : State) (r : Byte) (j : Fin 8), r.toNat = j.val →
    ∃ t, exec (.prn r) s = .next t ∧ t.out = s.out ++ [s.reg j] ∧ Frame [] [] s t ∧ t.fl = s.fl ∧ t.pc = s.pc ∧
      t.run = s.run

/-- R162, R163 (decision D6; the operand roles are the spec's general knowledge, K3): with LDST_SUPPORT = implemented, LD
loads the byte at the address in its second register, and ST stores its second register at the address in its first;
both check their operand bytes. -/
def Obligations.LdAndStMoveOneByteWhenImplemented : Prop :=
  EncodedRR 0x83 .ld ∧ EncodedRR 0x84 .st ∧
  (∀ (s : State) (a b : Byte) (ra rb : Fin 8), s.cfg.ldst = .implemented → s.mem.wf = true →
    a.toNat = ra.val → b.toNat = rb.val →
    (∃ t, exec (.ld a b) s = .next t ∧ t.reg ra = s.memRead (s.reg rb) ∧ Frame [ra] [] s t ∧ Quiet s t) ∧
    (∃ t, exec (.st a b) s = .next t ∧ t.memRead (s.reg ra) = s.reg rb ∧ Frame [] [s.reg ra] s t ∧ Quiet s t)) ∧
  (∀ (s : State) (a b : Byte), s.cfg.ldst = .implemented → 7 < a.toNat ∨ 7 < b.toNat →
    RaisesFault .registerIndexOutOfRange (.ld a b) s ∧ RaisesFault .registerIndexOutOfRange (.st a b) s)

/-- R164, R103 (decision D6): with LDST_SUPPORT = unsupported a step that meets the byte of LD or of ST raises
UnsupportedOpcode, whatever its operand bytes are. -/
def Obligations.LdAndStAreRejectedWhenUnsupported : Prop :=
  ∀ (s : State) (w : Window), s.run = .running → s.cfg.table.conforms = true → s.cfg.ldst = .unsupported →
    fetchWindow s = some w → w.ir = s.cfg.table.ld ∨ w.ir = s.cfg.table.st →
    StepFaults .unsupportedOpcode s

/-! ## The stack -/

/-- R181, R180 (decision D21): PUSH moves SP down by one modulo 256, then stores the register, read after that, at the
new SP; it changes nothing else. -/
def Obligations.PushStoresBelowTheStackPointer : Prop :=
  EncodedR 0x45 .push ∧ ChecksIndex .push ∧
  ∀ (s : State) (r : Byte) (j : Fin 8), s.mem.wf = true → r.toNat = j.val →
    ∃ t, exec (.push r) s = .next t ∧ t.sp = s.decSp.sp ∧ (s.decSp.sp).toNat = (s.sp.toNat + 255) % 256 ∧
      t.memRead s.decSp.sp = (if j = 7 then s.decSp.sp else s.reg j) ∧ Frame [7] [s.decSp.sp] s t ∧ Quiet s t

/-- R182, R180 (decision D21): POP loads the register from the byte at SP, then moves SP up by one modulo 256; POP R7
ends with the byte plus one; it changes nothing else. -/
def Obligations.PopLoadsThenRaisesTheStackPointer : Prop :=
  EncodedR 0x46 .pop ∧ ChecksIndex .pop ∧
  ∀ (s : State) (r : Byte) (j : Fin 8), r.toNat = j.val →
    ∃ t, exec (.pop r) s = .next t ∧
      (j ≠ 7 → t.reg j = s.memRead s.sp ∧ t.sp.toNat = (s.sp.toNat + 1) % 256) ∧
      (j = 7 → t.sp.toNat = ((s.memRead s.sp).toNat + 1) % 256) ∧ Frame [j, 7] [] s t ∧ Quiet s t

/-- R183, R180 (decision D21): CALL moves SP down, stores the address of the instruction after it at the new SP, and
sets pc to the register, read after the push; it changes nothing else. -/
def Obligations.CallPushesTheReturnAddress : Prop :=
  EncodedR 0x50 .call ∧ ChecksIndex .call ∧
  ∀ (s : State) (r : Byte) (j : Fin 8), s.mem.wf = true → r.toNat = j.val →
    ∃ t, exec (.call r) s = .next t ∧ t.sp = s.decSp.sp ∧ (s.decSp.sp).toNat = (s.sp.toNat + 255) % 256 ∧
      (s.pc ≤ 253 → (t.memRead s.decSp.sp).toNat = s.pc + 2) ∧
      t.pc = (if j = 7 then s.decSp.sp else s.reg j).toNat ∧ Frame [7] [s.decSp.sp] s t ∧
      t.fl = s.fl ∧ t.run = s.run ∧ t.out = s.out

/-- R184: RET sets pc to the byte at SP, then moves SP up by one modulo 256; it raises no fault, checks nothing, and
changes nothing else. -/
def Obligations.RetPopsThePc : Prop :=
  EncodedN 0x11 .ret ∧
  ∀ s : State, ∃ t, exec .ret s = .next t ∧ t.pc = (s.memRead s.sp).toNat ∧
    t.sp.toNat = (s.sp.toNat + 1) % 256 ∧ Frame [7] [] s t ∧ t.fl = s.fl ∧ t.run = s.run ∧ t.out = s.out

/-- R186: PUSH then POP of one register, R7 included, gives every register back, SP too, for every SP value. -/
def Obligations.PushThenPopRestoresAllRegisters : Prop :=
  ∀ (s : State) (r : Byte) (j : Fin 8), s.mem.wf = true → r.toNat = j.val →
    ∃ t u, exec (.push r) s = .next t ∧ exec (.pop r) t = .next u ∧ ∀ x, u.reg x = s.reg x

/-- R186: after a CALL, a RET from any state with the same SP and the same byte there resumes at the address after the
CALL, with SP as it was before the CALL. -/
def Obligations.RetResumesAfterTheCall : Prop :=
  ∀ (s : State) (r : Byte) (j : Fin 8), s.mem.wf = true → s.pc ≤ 253 → r.toNat = j.val →
    ∃ t, exec (.call r) s = .next t ∧
      ∀ u : State, u.sp = t.sp → u.memRead u.sp = t.memRead t.sp →
        ∃ v, exec .ret u = .next v ∧ v.pc = s.pc + 2 ∧ v.sp = s.sp

/-! ## Jumps and halt -/

/-- R201: JMP sets pc to its register and changes nothing else. -/
def Obligations.JmpSetsPcFromTheRegister : Prop :=
  EncodedR 0x54 .jmp ∧ JumpsWhen .jmp (fun _ => True)

/-- R202 to R207: each conditional jump is taken exactly on its condition over bits 0, 1 and 2 of FL; taken it behaves as
JMP, and not taken it advances pc by 2 without looking at its operand. -/
def Obligations.ConditionalJumpsFollowTheFlags : Prop :=
  (EncodedR 0x55 .jeq ∧ JumpsWhen .jeq (fun s => s.fl.getLsbD 0 = true)) ∧
  (EncodedR 0x56 .jne ∧ JumpsWhen .jne (fun s => s.fl.getLsbD 0 = false)) ∧
  (EncodedR 0x57 .jgt ∧ JumpsWhen .jgt (fun s => s.fl.getLsbD 1 = true)) ∧
  (EncodedR 0x58 .jlt ∧ JumpsWhen .jlt (fun s => s.fl.getLsbD 2 = true)) ∧
  (EncodedR 0x59 .jle ∧ JumpsWhen .jle (fun s => s.fl.getLsbD 2 = true ∨ s.fl.getLsbD 0 = true)) ∧
  (EncodedR 0x5A .jge ∧ JumpsWhen .jge (fun s => s.fl.getLsbD 1 = true ∨ s.fl.getLsbD 0 = true))

/-- R220: HLT sets run to HALTED and changes nothing else; its step leaves pc one past it; at 254 or 255 it never
executes. -/
def Obligations.HltStopsTheLoop : Prop :=
  EncodedN 0x01 .hlt ∧
  (∀ s : State, ∃ t, exec .hlt s = .next t ∧ t.run = .halted ∧ Frame [] [] s t ∧ t.fl = s.fl ∧ t.pc = s.pc ∧
    t.out = s.out) ∧
  (∀ (s : State) (w : Window), Dispatches s w .hlt → ∃ t, step s = .next t ∧ t.run = .halted ∧ t.pc = s.pc + 1) ∧
  (∀ s : State, s.run = .running → s.cfg.table.conforms = true → s.pc = 254 ∨ s.pc = 255 →
    StepFaults .addressOutOfRange s)
end

