-- ==== Sys2Proof/Laws/Decoding.lean ====
section
/-! SUPPORT. What a conforming opcode table gives: lookup finds exactly the instruction whose byte it is, and the operand
count, B and C of each byte. -/

namespace Sys2Proof

theorem Op.mem_all (o : Op) : o ∈ Op.all := by
  cases o <;> simp [Op.all]

theorem OpcodeTable.rowConforms_of_conforms {t : OpcodeTable} (h : t.conforms = true) (o : Op) :
    t.rowConforms o = true := by
  simp only [OpcodeTable.conforms, Bool.and_eq_true, List.all_eq_true] at h
  exact h.1.1 o o.mem_all

theorem OpcodeTable.byteOf_injective {t : OpcodeTable} (h : t.conforms = true) {o p : Op}
    (e : t.byteOf o = t.byteOf p) : o = p := by
  simp only [OpcodeTable.conforms, Bool.and_eq_true, decide_eq_true_eq] at h
  exact List.inj_on_of_nodup_map h.1.2 o.mem_all p.mem_all e

theorem OpcodeTable.operandCount_mem {t : OpcodeTable} (h : t.conforms = true) (o : Op) :
    (decodeFields (t.byteOf o)).operandCount ∈ o.operandCounts := by
  have := OpcodeTable.rowConforms_of_conforms h o
  simp only [OpcodeTable.rowConforms, Bool.and_eq_true, List.contains_iff_mem] at this
  exact this.1.1

theorem OpcodeTable.alu_eq {t : OpcodeTable} (h : t.conforms = true) (o : Op) :
    (decodeFields (t.byteOf o)).alu = o.isAlu := by
  have := OpcodeTable.rowConforms_of_conforms h o
  simp only [OpcodeTable.rowConforms, Bool.and_eq_true, beq_iff_eq] at this
  exact this.1.2

theorem OpcodeTable.pcSet_eq {t : OpcodeTable} (h : t.conforms = true) (o : Op) :
    (decodeFields (t.byteOf o)).pcSet = o.setsPc := by
  have := OpcodeTable.rowConforms_of_conforms h o
  simp only [OpcodeTable.rowConforms, Bool.and_eq_true, beq_iff_eq] at this
  exact this.2

theorem OpcodeTable.lookup_some {t : OpcodeTable} {b : Byte} {o : Op} (h : t.lookup b = some o) :
    t.byteOf o = b := by
  have := List.find?_some h
  simpa using this

theorem OpcodeTable.lookup_none {t : OpcodeTable} {b : Byte} (h : t.lookup b = none) (o : Op) :
    t.byteOf o ≠ b := by
  have := List.find?_eq_none.mp h o o.mem_all
  simpa using this

theorem Instr.op_ofOp (o : Op) (x y : Byte) : (Instr.ofOp o x y).op = o := by
  cases o <;> rfl

/-- What a decoded instruction says of its window. -/
theorem decode_ok {t : OpcodeTable} {w : Window} {i : Instr} (h : decode t w = .ok i) :
    t.byteOf i.op = w.ir ∧ i = Instr.ofOp i.op w.opA w.opB := by
  unfold decode at h
  split at h
  · obtain rfl := Except.ok.inj h
    exact ⟨by rw [Instr.op_ofOp]; exact OpcodeTable.lookup_some ‹_›, by rw [Instr.op_ofOp]⟩
  · split at h <;> cases h

/-- What a rejected byte is. -/
theorem decode_error {t : OpcodeTable} {w : Window} {e : DecodeReject} (h : decode t w = .error e) :
    (∀ o, t.byteOf o ≠ w.ir) ∧
      e = if (decodeFields w.ir).alu then .unsupportedAluOp else .unsupportedOpcode := by
  unfold decode at h
  split at h
  · cases h
  · refine ⟨OpcodeTable.lookup_none ‹_›, ?_⟩
    split at h <;> simp_all

/-! ## Encodings with one and with two operand bytes -/

theorem encode_of_none {t : OpcodeTable} {i : Instr}
    (hn : (decodeFields (t.byteOf i.op)).operandCount = 0) : encode t i = [t.byteOf i.op] := by
  simp [encode, hn]

theorem encode_of_one {t : OpcodeTable} {i : Instr} {x : Byte} (hb : i.operandBytes = [x])
    (hn : (decodeFields (t.byteOf i.op)).operandCount = 1) : encode t i = [t.byteOf i.op, x] := by
  simp [encode, hb, hn]

theorem encode_of_two {t : OpcodeTable} {i : Instr} {x y : Byte} (hb : i.operandBytes = [x, y])
    (hn : (decodeFields (t.byteOf i.op)).operandCount = 2) : encode t i = [t.byteOf i.op, x, y] := by
  simp [encode, hb, hn]

/-- The operand counts of the default table. -/
theorem OpcodeTable.default_operandCount (o : Op) :
    (decodeFields (OpcodeTable.default.byteOf o)).operandCount = o.operandCounts.headD 0 := by
  cases o <;> decide

theorem OpcodeTable.lookup_byteOf {t : OpcodeTable} (h : t.conforms = true) (o : Op) :
    t.lookup (t.byteOf o) = some o := by
  rcases hl : t.lookup (t.byteOf o) with _ | p
  · exact absurd rfl (OpcodeTable.lookup_none hl o)
  · rw [OpcodeTable.byteOf_injective h (OpcodeTable.lookup_some hl)]

end Sys2Proof
end

