-- ==== Sys2Proof/Laws/State.lean ====
section
/-! SUPPORT. One lemma per field per update of the state, so that no later proof unfolds a record update. -/

namespace Sys2Proof.Machine

variable (s : State)

/-! ## memWrite -/

@[simp] theorem State.memWrite_cfg (a v : Byte) : (s.memWrite a v).cfg = s.cfg := rfl

@[simp] theorem State.memWrite_regs (a v : Byte) : (s.memWrite a v).regs = s.regs := rfl

@[simp] theorem State.memWrite_pc (a v : Byte) : (s.memWrite a v).pc = s.pc := rfl

@[simp] theorem State.memWrite_fl (a v : Byte) : (s.memWrite a v).fl = s.fl := rfl

@[simp] theorem State.memWrite_mem (a v : Byte) : (s.memWrite a v).mem = s.mem.write a.toNat v := rfl

@[simp] theorem State.memWrite_run (a v : Byte) : (s.memWrite a v).run = s.run := rfl

@[simp] theorem State.memWrite_out (a v : Byte) : (s.memWrite a v).out = s.out := rfl

/-! ## setReg -/

@[simp] theorem State.setReg_cfg (i : Fin 8) (v : Byte) : (s.setReg i v).cfg = s.cfg := rfl

@[simp] theorem State.setReg_regs (i : Fin 8) (v : Byte) : (s.setReg i v).regs = s.regs.set i v := rfl

@[simp] theorem State.setReg_pc (i : Fin 8) (v : Byte) : (s.setReg i v).pc = s.pc := rfl

@[simp] theorem State.setReg_fl (i : Fin 8) (v : Byte) : (s.setReg i v).fl = s.fl := rfl

@[simp] theorem State.setReg_mem (i : Fin 8) (v : Byte) : (s.setReg i v).mem = s.mem := rfl

@[simp] theorem State.setReg_run (i : Fin 8) (v : Byte) : (s.setReg i v).run = s.run := rfl

@[simp] theorem State.setReg_out (i : Fin 8) (v : Byte) : (s.setReg i v).out = s.out := rfl

/-! ## setPc -/

@[simp] theorem State.setPc_cfg (t : Nat) : (s.setPc t).cfg = s.cfg := rfl

@[simp] theorem State.setPc_regs (t : Nat) : (s.setPc t).regs = s.regs := rfl

@[simp] theorem State.setPc_pc (t : Nat) : (s.setPc t).pc = t := rfl

@[simp] theorem State.setPc_fl (t : Nat) : (s.setPc t).fl = s.fl := rfl

@[simp] theorem State.setPc_mem (t : Nat) : (s.setPc t).mem = s.mem := rfl

@[simp] theorem State.setPc_run (t : Nat) : (s.setPc t).run = s.run := rfl

@[simp] theorem State.setPc_out (t : Nat) : (s.setPc t).out = s.out := rfl

/-! ## setFl -/

@[simp] theorem State.setFl_cfg (v : Byte) : (s.setFl v).cfg = s.cfg := rfl

@[simp] theorem State.setFl_regs (v : Byte) : (s.setFl v).regs = s.regs := rfl

@[simp] theorem State.setFl_pc (v : Byte) : (s.setFl v).pc = s.pc := rfl

@[simp] theorem State.setFl_fl (v : Byte) : (s.setFl v).fl = v := rfl

@[simp] theorem State.setFl_mem (v : Byte) : (s.setFl v).mem = s.mem := rfl

@[simp] theorem State.setFl_run (v : Byte) : (s.setFl v).run = s.run := rfl

@[simp] theorem State.setFl_out (v : Byte) : (s.setFl v).out = s.out := rfl

/-! ## emit -/

@[simp] theorem State.emit_cfg (v : Byte) : (s.emit v).cfg = s.cfg := rfl

@[simp] theorem State.emit_regs (v : Byte) : (s.emit v).regs = s.regs := rfl

@[simp] theorem State.emit_pc (v : Byte) : (s.emit v).pc = s.pc := rfl

@[simp] theorem State.emit_fl (v : Byte) : (s.emit v).fl = s.fl := rfl

@[simp] theorem State.emit_mem (v : Byte) : (s.emit v).mem = s.mem := rfl

@[simp] theorem State.emit_run (v : Byte) : (s.emit v).run = s.run := rfl

@[simp] theorem State.emit_out (v : Byte) : (s.emit v).out = s.out ++ [v] := rfl

/-! ## setRun -/

@[simp] theorem State.setRun_cfg (r : RunState) : (s.setRun r).cfg = s.cfg := rfl

@[simp] theorem State.setRun_regs (r : RunState) : (s.setRun r).regs = s.regs := rfl

@[simp] theorem State.setRun_pc (r : RunState) : (s.setRun r).pc = s.pc := rfl

@[simp] theorem State.setRun_fl (r : RunState) : (s.setRun r).fl = s.fl := rfl

@[simp] theorem State.setRun_mem (r : RunState) : (s.setRun r).mem = s.mem := rfl

@[simp] theorem State.setRun_run (r : RunState) : (s.setRun r).run = r := rfl

@[simp] theorem State.setRun_out (r : RunState) : (s.setRun r).out = s.out := rfl

/-! ## Registers through `reg` -/

@[simp] theorem State.reg_setReg_same (i : Fin 8) (v : Byte) : (s.setReg i v).reg i = v := by
  simp [State.reg, State.setReg]

theorem State.reg_setReg_of_ne {i j : Fin 8} (h : j ≠ i) (v : Byte) : (s.setReg i v).reg j = s.reg j := by
  have : (i : Nat) ≠ j := fun e => h (Fin.ext e.symm)
  simp [State.reg, State.setReg, Vector.getElem_set_ne, this]

theorem State.reg_setReg (i j : Fin 8) (v : Byte) :
    (s.setReg i v).reg j = if j = i then v else s.reg j := by
  split
  · subst_vars; simp
  · exact s.reg_setReg_of_ne ‹_› v

@[simp] theorem State.reg_memWrite (a v : Byte) (j : Fin 8) : (s.memWrite a v).reg j = s.reg j := rfl

@[simp] theorem State.reg_setPc (t : Nat) (j : Fin 8) : (s.setPc t).reg j = s.reg j := rfl

@[simp] theorem State.reg_setFl (v : Byte) (j : Fin 8) : (s.setFl v).reg j = s.reg j := rfl

@[simp] theorem State.reg_emit (v : Byte) (j : Fin 8) : (s.emit v).reg j = s.reg j := rfl

@[simp] theorem State.reg_setRun (r : RunState) (j : Fin 8) : (s.setRun r).reg j = s.reg j := rfl

/-! ## The stack pointer -/

theorem State.sp_eq : s.sp = s.reg 7 := rfl

theorem State.decSp_eq : s.decSp = s.setReg 7 (trunc8 ((s.sp.toNat : Int) - 1)) := rfl

theorem State.incSp_eq : s.incSp = s.setReg 7 (trunc8 ((s.sp.toNat : Int) + 1)) := rfl

@[simp] theorem State.sp_decSp : s.decSp.sp = trunc8 ((s.sp.toNat : Int) - 1) := by
  simp [State.decSp, State.sp]

@[simp] theorem State.sp_incSp : s.incSp.sp = trunc8 ((s.sp.toNat : Int) + 1) := by
  simp [State.incSp, State.sp]

/-! ## Memory through `memRead` -/

@[simp] theorem State.memRead_setReg (i : Fin 8) (v a : Byte) : (s.setReg i v).memRead a = s.memRead a := rfl

@[simp] theorem State.memRead_setPc (t : Nat) (a : Byte) : (s.setPc t).memRead a = s.memRead a := rfl

@[simp] theorem State.memRead_setFl (v a : Byte) : (s.setFl v).memRead a = s.memRead a := rfl

@[simp] theorem State.memRead_emit (v a : Byte) : (s.emit v).memRead a = s.memRead a := rfl

@[simp] theorem State.memRead_setRun (r : RunState) (a : Byte) : (s.setRun r).memRead a = s.memRead a := rfl

end Sys2Proof.Machine
end

