-- ==== Sys2Proof/Laws/Memory.lean ====
section
/-! SUPPORT. The laws of memory: a read after a write, and the canonical form, which every memory operation keeps. -/

namespace Sys2Proof.Machine

theorem Memory.read_consCell (a : Nat) (v : Byte) (m : Memory) (x : Nat)
    (h : v = Memory.unlisted → m.read a = Memory.unlisted) :
    (Memory.consCell a v m).read x = if a = x then v else m.read x := by
  unfold Memory.consCell
  split
  · rename_i hv
    split
    · subst_vars; exact h rfl
    · rfl
  · rfl

/-- Nothing listed below `a` or at `a` means an unlisted read there. -/
theorem Memory.read_eq_unlisted {m : Memory} {a : Nat} (h : ∀ c ∈ m, c.1 ≠ a) : m.read a = Memory.unlisted := by
  induction m with
  | nil => rfl
  | cons c m ih =>
    rw [Memory.read, if_neg (h c (by simp))]
    exact ih fun d hd => h d (by simp [hd])

/-- The addresses rise strictly. -/
abbrev Memory.Sorted (m : Memory) : Prop := m.Pairwise fun c d => c.1 < d.1

/-- R61: in a list with rising addresses, a read after a write gives the value written at that address and the old
value elsewhere. -/
theorem Memory.read_write_of_sorted {m : Memory} (hs : m.Sorted) (a : Nat) (v : Byte) (x : Nat) :
    (m.write a v).read x = if a = x then v else m.read x := by
  induction m with
  | nil => exact Memory.read_consCell a v [] x fun _ => rfl
  | cons c m ih =>
    obtain ⟨k, w⟩ := c
    obtain ⟨hk, hm⟩ := List.pairwise_cons.mp hs
    have above : ∀ y, y ≤ k → ∀ c ∈ m, c.1 ≠ y := fun y hy c hc => by have := hk c hc; simp at this; omega
    rw [Memory.write]
    split
    · rename_i hak
      refine Memory.read_consCell a v _ x fun _ => ?_
      rw [Memory.read, if_neg (by omega)]
      exact Memory.read_eq_unlisted (above a (by omega))
    · split
      · subst_vars
        rw [Memory.read_consCell _ v _ x fun _ => Memory.read_eq_unlisted (above _ le_rfl), Memory.read]
        split <;> rfl
      · rw [Memory.read, ih hm, Memory.read]
        split <;> split <;> first | rfl | omega

theorem Memory.wf_iff (m : Memory) :
    m.wf = true ↔ m.Sorted ∧ ∀ c ∈ m, c.1 < 256 ∧ c.2 ≠ Memory.unlisted := by
  simp [Memory.wf, List.all_eq_true, Memory.Sorted]

theorem Memory.sorted_of_wf {m : Memory} (h : m.wf = true) : m.Sorted := ((Memory.wf_iff m).mp h).1

theorem Memory.wf_nil : Memory.wf [] = true := rfl

/-- Every cell of a written list is the new one or an old one. -/
theorem Memory.mem_write {m : Memory} {a : Nat} {v : Byte} {c : Host.Cell} (h : c ∈ m.write a v) :
    (c = (a, v) ∧ v ≠ Memory.unlisted) ∨ c ∈ m := by
  have cons : ∀ {m : Memory}, c ∈ Memory.consCell a v m → (c = (a, v) ∧ v ≠ Memory.unlisted) ∨ c ∈ m := by
    intro m hc
    unfold Memory.consCell at hc
    split at hc
    · exact .inr hc
    · rcases List.mem_cons.mp hc with rfl | hc
      · exact .inl ⟨rfl, ‹_›⟩
      · exact .inr hc
  induction m with
  | nil => exact cons h
  | cons d m ih =>
    rw [Memory.write] at h
    split at h
    · exact cons h
    · split at h
      · rcases cons h with h | h
        · exact .inl h
        · exact .inr (by simp [h])
      · rcases List.mem_cons.mp h with rfl | h
        · exact .inr (by simp)
        · rcases ih h with h | h
          · exact .inl h
          · exact .inr (by simp [h])

theorem Memory.sorted_consCell {a : Nat} {v : Byte} {m : Memory} (hm : m.Sorted) (h : ∀ c ∈ m, a < c.1) :
    (Memory.consCell a v m).Sorted := by
  unfold Memory.consCell
  split
  · exact hm
  · exact List.pairwise_cons.mpr ⟨h, hm⟩

theorem Memory.sorted_write {m : Memory} (hs : m.Sorted) (a : Nat) (v : Byte) : (m.write a v).Sorted := by
  induction m with
  | nil => exact Memory.sorted_consCell List.Pairwise.nil (by simp)
  | cons c m ih =>
    obtain ⟨hk, hm⟩ := List.pairwise_cons.mp hs
    rw [Memory.write]
    split
    · rename_i hak
      refine Memory.sorted_consCell hs fun d hd => ?_
      rcases List.mem_cons.mp hd with rfl | hd
      · exact hak
      · exact lt_trans hak (hk d hd)
    · split
      · subst_vars
        exact Memory.sorted_consCell hm hk
      · refine List.pairwise_cons.mpr ⟨fun d hd => ?_, ih hm⟩
        rcases Memory.mem_write hd with ⟨rfl, -⟩ | hd
        · simp only; omega
        · exact hk d hd

/-- A write below 256 keeps the canonical form. -/
theorem Memory.wf_write {m : Memory} (h : m.wf = true) {a : Nat} (ha : a < 256) (v : Byte) :
    (m.write a v).wf = true := by
  rw [Memory.wf_iff] at h ⊢
  refine ⟨Memory.sorted_write h.1 a v, fun c hc => ?_⟩
  rcases Memory.mem_write hc with ⟨rfl, hv⟩ | hc
  · exact ⟨ha, hv⟩
  · exact h.2 c hc

/-- The load of an image that fits keeps the canonical form. -/
theorem Memory.wf_load {m : Memory} (h : m.wf = true) {a : Nat} {image : List Byte}
    (ha : a + image.length ≤ 256) : (m.load a image).wf = true := by
  induction image generalizing m a with
  | nil => exact h
  | cons v vs ih =>
    simp only [List.length_cons] at ha
    exact ih (Memory.wf_write h (by omega) v) (by omega)

/-! ## Through the state -/

theorem State.memWrite_wf {s : State} (h : s.mem.wf = true) (a v : Byte) : (s.memWrite a v).mem.wf = true :=
  Memory.wf_write h a.isLt v

/-- R61 for the machine's own reads and writes, in a state whose memory is in canonical form. -/
theorem State.memRead_memWrite {s : State} (h : s.mem.wf = true) (a v x : Byte) :
    (s.memWrite a v).memRead x = if a = x then v else s.memRead x := by
  simp only [State.memRead, State.memWrite, Memory.read_write_of_sorted (Memory.sorted_of_wf h)]
  simp only [← BitVec.toNat_inj]

end Sys2Proof.Machine
end

