-- ==== Sys2Proof/Laws/Operations.lean ====
section
/-! SUPPORT. One lemma per shared operation that says everything it can do, for the proofs to cite instead of unfolding
it; and the values the ALU computes, as numbers. -/

namespace Sys2Proof.Machine

/-! ## trunc8 and the values of the ALU -/

theorem trunc8_toNat (v : Int) : ((trunc8 v).toNat : Int) = v % 256 := by
  rw [trunc8, BitVec.toNat_ofInt]
  exact Int.toNat_of_nonneg (Int.emod_nonneg _ (by decide))

theorem trunc8_natCast_toNat (n : Nat) : (trunc8 (n : Int)).toNat = n % 256 := by
  have := trunc8_toNat n
  omega

theorem addValue_toNat (p q : Byte) : (addValue p q).toNat = (p.toNat + q.toNat) % 256 :=
  trunc8_natCast_toNat _

theorem subValue_toNat (p q : Byte) : (subValue p q).toNat = (p.toNat + 256 - q.toNat) % 256 := by
  have := trunc8_toNat (p.toNat - q.toNat)
  have := q.isLt
  simp only [subValue]
  omega

theorem mulValue_toNat (p q : Byte) : (mulValue p q).toNat = p.toNat * q.toNat % 256 := by
  rw [mulValue, ← Int.natCast_mul]
  exact trunc8_natCast_toNat _

theorem incValue_toNat (p : Byte) : (incValue p).toNat = (p.toNat + 1) % 256 :=
  trunc8_natCast_toNat _

theorem decValue_toNat (p : Byte) : (decValue p).toNat = (p.toNat + 255) % 256 := by
  have := trunc8_toNat (p.toNat - 1)
  simp only [decValue]
  omega

theorem notValue_toNat (p : Byte) : (notValue p).toNat = 255 - p.toNat := by
  have := trunc8_toNat (255 - p.toNat)
  have := p.isLt
  simp only [notValue]
  omega

theorem divValue_toNat (p q : Byte) : (divValue p q).toNat = p.toNat / q.toNat := by
  rw [divValue, BitVec.toNat_ofNat]
  exact Nat.mod_eq_of_lt (lt_of_le_of_lt (Nat.div_le_self _ _) p.isLt)

theorem modValue_toNat (p q : Byte) : (modValue p q).toNat = p.toNat % q.toNat := by
  rw [modValue, BitVec.toNat_ofNat]
  exact Nat.mod_eq_of_lt (lt_of_le_of_lt (Nat.mod_le _ _) p.isLt)

theorem shlValue_toNat (p q : Byte) : (shlValue p q).toNat = p.toNat * 2 ^ q.toNat % 256 := by
  simp [shlValue, Nat.shiftLeft_eq]

theorem shrValue_toNat (p q : Byte) : (shrValue p q).toNat = p.toNat / 2 ^ q.toNat := by
  rw [shrValue, BitVec.toNat_ofNat, Nat.shiftRight_eq_div_pow]
  exact Nat.mod_eq_of_lt (lt_of_le_of_lt (Nat.div_le_self _ _) p.isLt)

/-! ## Register operands -/

theorem regIndex?_of_val {b : Byte} {i : Fin 8} (h : b.toNat = i.val) : regIndex? b = some i := by
  simp [regIndex?, h]

theorem regIndex?_eq_some_iff {b : Byte} {i : Fin 8} : regIndex? b = some i ↔ b.toNat = i.val := by
  refine ⟨fun h => ?_, regIndex?_of_val⟩
  unfold regIndex? at h
  split at h
  · exact congrArg Fin.val (Option.some.inj h)
  · cases h

theorem regIndex?_eq_none_iff {b : Byte} : regIndex? b = none ↔ 7 < b.toNat := by
  unfold regIndex?
  split <;> simp <;> omega

theorem withReg_of_val {r : Byte} {i : Fin 8} (h : r.toNat = i.val) (s : State) (f : Fin 8 → Result) :
    withReg r s f = f i := by
  rw [withReg, regIndex?_of_val h]

theorem withReg_of_gt {r : Byte} (h : 7 < r.toNat) (s : State) (f : Fin 8 → Result) :
    withReg r s f = takeFault .registerIndexOutOfRange s := by
  rw [withReg, regIndex?_eq_none_iff.mpr h]

/-- A byte names a register or is above 7. -/
theorem reg_cases (b : Byte) : (∃ i : Fin 8, b.toNat = i.val) ∨ 7 < b.toNat := by
  by_cases h : b.toNat < 8
  · exact .inl ⟨⟨b.toNat, h⟩, rfl⟩
  · exact .inr (by omega)

/-- Everything `withReg` can do. -/
theorem withReg_next {r : Byte} {s t : State} {f : Fin 8 → Result} (h : withReg r s f = .next t) :
    (∃ i, r.toNat = i.val ∧ f i = .next t) ∨
      (7 < r.toNat ∧ t = s.setRun (.faulted .registerIndexOutOfRange)) := by
  rcases reg_cases r with ⟨i, hi⟩ | hr
  · exact .inl ⟨i, hi, by rwa [withReg_of_val hi] at h⟩
  · rw [withReg_of_gt hr, takeFault] at h
    exact .inr ⟨hr, (Host.Outcome.next.inj h).symm⟩

theorem withRegs_of_val {a b : Byte} {i j : Fin 8} (ha : a.toNat = i.val) (hb : b.toNat = j.val) (s : State)
    (f : Fin 8 → Fin 8 → Result) : withRegs a b s f = f i j := by
  rw [withRegs, withReg_of_val ha, withReg_of_val hb]

theorem withRegs_of_gt {a b : Byte} (h : 7 < a.toNat ∨ 7 < b.toNat) (s : State)
    (f : Fin 8 → Fin 8 → Result) : withRegs a b s f = takeFault .registerIndexOutOfRange s := by
  rw [withRegs]
  rcases reg_cases a with ⟨i, hi⟩ | ha
  · rw [withReg_of_val hi, withReg_of_gt (h.resolve_left (by omega))]
  · rw [withReg_of_gt ha]

/-- Everything `withRegs` can do. -/
theorem withRegs_next {a b : Byte} {s t : State} {f : Fin 8 → Fin 8 → Result} (h : withRegs a b s f = .next t) :
    (∃ i j, a.toNat = i.val ∧ b.toNat = j.val ∧ f i j = .next t) ∨
      ((7 < a.toNat ∨ 7 < b.toNat) ∧ t = s.setRun (.faulted .registerIndexOutOfRange)) := by
  rcases withReg_next h with ⟨i, hi, h⟩ | ⟨ha, h⟩
  · rcases withReg_next h with ⟨j, hj, h⟩ | ⟨hb, h⟩
    · exact .inl ⟨i, j, hi, hj, h⟩
    · exact .inr ⟨.inr hb, h⟩
  · exact .inr ⟨.inl ha, h⟩

/-! ## Faults -/

theorem faultedFrom_setRun (k : FaultKind) (s : State) : FaultedFrom k s (s.setRun (.faulted k)) :=
  ⟨rfl, ⟨fun _ _ => rfl, fun _ _ => rfl, rfl⟩, rfl, rfl, rfl⟩

/-! ## The shared operations: everything each can do -/

theorem aluBinary_next {f : Byte → Byte → Byte} {a b : Byte} {s t : State} (h : aluBinary f a b s = .next t) :
    (∃ i j, a.toNat = i.val ∧ b.toNat = j.val ∧ t = s.setReg i (f (s.reg i) (s.reg j))) ∨
      ((7 < a.toNat ∨ 7 < b.toNat) ∧ t = s.setRun (.faulted .registerIndexOutOfRange)) := by
  rcases withRegs_next h with ⟨i, j, hi, hj, h⟩ | h
  · exact .inl ⟨i, j, hi, hj, (Host.Outcome.next.inj h).symm⟩
  · exact .inr h

theorem aluUnary_next {f : Byte → Byte} {a : Byte} {s t : State} (h : aluUnary f a s = .next t) :
    (∃ i, a.toNat = i.val ∧ t = s.setReg i (f (s.reg i))) ∨
      (7 < a.toNat ∧ t = s.setRun (.faulted .registerIndexOutOfRange)) := by
  rcases withReg_next h with ⟨i, hi, h⟩ | h
  · exact .inl ⟨i, hi, (Host.Outcome.next.inj h).symm⟩
  · exact .inr h

theorem aluDivide_next {f : Byte → Byte → Byte} {a b : Byte} {s t : State} (h : aluDivide f a b s = .next t) :
    (∃ i j, a.toNat = i.val ∧ b.toNat = j.val ∧ s.reg j ≠ 0 ∧ t = s.setReg i (f (s.reg i) (s.reg j))) ∨
      (∃ j, a.toNat ≤ 7 ∧ b.toNat = j.val ∧ s.reg j = 0 ∧ t = s.setRun (.faulted .divideByZero)) ∨
      ((7 < a.toNat ∨ 7 < b.toNat) ∧ t = s.setRun (.faulted .registerIndexOutOfRange)) := by
  rcases withRegs_next h with ⟨i, j, hi, hj, h⟩ | h
  · split at h
    · exact .inr (.inl ⟨j, by omega, hj, ‹_›, (Host.Outcome.next.inj h).symm⟩)
    · exact .inl ⟨i, j, hi, hj, ‹_›, (Host.Outcome.next.inj h).symm⟩
  · exact .inr (.inr h)

theorem whenLdst_next {s t : State} {f : State → Result} (h : whenLdst s f = .next t) :
    (s.cfg.ldst = .implemented ∧ f s = .next t) ∨
      (s.cfg.ldst = .unsupported ∧ t = s.setRun (.faulted .unsupportedOpcode)) := by
  unfold whenLdst at h
  split at h
  · exact .inr ⟨‹_›, (Host.Outcome.next.inj h).symm⟩
  · exact .inl ⟨‹_›, h⟩

theorem jumpTo_next {r : Byte} {s t : State} (h : jumpTo r s = .next t) :
    (∃ i, r.toNat = i.val ∧ t = s.setPc (s.reg i).toNat) ∨
      (7 < r.toNat ∧ t = s.setRun (.faulted .registerIndexOutOfRange)) := by
  rcases withReg_next h with ⟨i, hi, h⟩ | h
  · exact .inl ⟨i, hi, (Host.Outcome.next.inj h).symm⟩
  · exact .inr h

theorem jumpIf_next {c : Bool} {r : Byte} {s t : State} (h : jumpIf c r s = .next t) :
    (c = true ∧ ∃ i, r.toNat = i.val ∧ t = s.setPc (s.reg i).toNat) ∨
      (c = true ∧ 7 < r.toNat ∧ t = s.setRun (.faulted .registerIndexOutOfRange)) ∨
      (c = false ∧ t = s.setPc (s.pc + 2)) := by
  cases c
  · exact .inr (.inr ⟨rfl, (Host.Outcome.next.inj h).symm⟩)
  · rcases jumpTo_next h with h | h
    · exact .inl ⟨rfl, h⟩
    · exact .inr (.inl ⟨rfl, h⟩)

/-! ## Fetch, pc update and the step -/

theorem fetchWindow_eq_some {s : State} (h : s.pc ≤ 253) :
    fetchWindow s = some ⟨s.mem.read s.pc, s.mem.read (s.pc + 1), s.mem.read (s.pc + 2)⟩ := by
  have h0 : s.pc ≤ 255 := by omega
  have h1 : s.pc + 1 ≤ 255 := by omega
  have h2 : s.pc + 2 ≤ 255 := by omega
  simp only [fetchWindow, State.memReadAt?, h0, h1, h2, if_true]

theorem fetchWindow_eq_none {s : State} (h : 253 < s.pc) : fetchWindow s = none := by
  have : ¬ s.pc + 2 ≤ 255 := by omega
  simp only [fetchWindow, State.memReadAt?, this, if_false]
  split
  · simp_all
  · rfl

/-- What a fetched window says of pc and of itself. -/
theorem fetchWindow_some {s : State} {w : Window} (h : fetchWindow s = some w) :
    s.pc ≤ 253 ∧ w = ⟨s.mem.read s.pc, s.mem.read (s.pc + 1), s.mem.read (s.pc + 2)⟩ := by
  by_cases hp : s.pc ≤ 253
  · rw [fetchWindow_eq_some hp] at h
    exact ⟨hp, (Option.some.inj h).symm⟩
  · rw [fetchWindow_eq_none (by omega)] at h
    cases h

theorem completeStep_of_faulted {ir : Byte} {t : State} {k : FaultKind} (h : t.run = .faulted k) :
    completeStep ir t = t := by
  rw [completeStep, h]

theorem completeStep_of_not_faulted {ir : Byte} {t : State} (h : ∀ k, t.run ≠ .faulted k) :
    completeStep ir t = if (decodeFields ir).pcSet then t else t.setPc (t.pc + instrLength ir) := by
  unfold completeStep
  split
  · exact absurd ‹_› (h _)
  · rfl
  · rfl

/-- The pc update moves pc and nothing else. -/
theorem completeStep_eq_setPc (ir : Byte) (t : State) : ∃ p, completeStep ir t = t.setPc p := by
  unfold completeStep
  split
  · exact ⟨t.pc, rfl⟩
  all_goals (split; exacts [⟨t.pc, rfl⟩, ⟨_, rfl⟩])

theorem step_of_not_running {s : State} (h : s.run ≠ .running) : step s = .next s := by
  unfold step
  split
  · exact absurd ‹_› h
  · rfl
  · rfl

/-- What a step is where it runs an instruction. -/
theorem step_of_dispatches {s : State} {w : Window} {i : Instr} (h : Dispatches s w i) :
    step s = completeResult w.ir (exec i s) := by
  simp only [step, h.running, h.conforms, if_true, stepRunning, h.fetched, h.decoded]

/-- Everything a step can do where the table conforms. -/
theorem step_next {s t : State} (hc : s.cfg.table.conforms = true) (h : step s = .next t) :
    (s.run ≠ .running ∧ t = s) ∨
    (s.run = .running ∧ 253 < s.pc ∧ t = s.setRun (.faulted .addressOutOfRange)) ∨
    (∃ w e, s.run = .running ∧ fetchWindow s = some w ∧ decode s.cfg.table w = .error e ∧
      t = s.setRun (.faulted (rejectKind e))) ∨
    (∃ w i u, Dispatches s w i ∧ exec i s = .next u ∧ t = completeStep w.ir u) := by
  by_cases hr : s.run = .running
  · rcases hw : fetchWindow s with _ | w
    · have hp : 253 < s.pc := by
        by_contra hp
        rw [fetchWindow_eq_some (by omega)] at hw
        cases hw
      simp only [step, hr, hc, if_true, stepRunning, hw] at h
      exact .inr (.inl ⟨hr, hp, (Host.Outcome.next.inj h).symm⟩)
    · rcases hd : decode s.cfg.table w with e | i
      · simp only [step, hr, hc, if_true, stepRunning, hw, hd] at h
        exact .inr (.inr (.inl ⟨w, e, hr, rfl, hd, (Host.Outcome.next.inj h).symm⟩))
      · have hdis : Dispatches s w i := ⟨hr, hc, hw, hd⟩
        rw [step_of_dispatches hdis] at h
        rcases he : exec i s with u | _ | _ <;> rw [he] at h <;> simp only [completeResult] at h
        · exact .inr (.inr (.inr ⟨w, i, u, hdis, he, (Host.Outcome.next.inj h).symm⟩))
        all_goals cases h
  · rw [step_of_not_running hr] at h
    exact .inl ⟨hr, (Host.Outcome.next.inj h).symm⟩

/-! ## Runs -/

theorem run_succ_of_step (M : Host.Core) {s t : M.State} (h : M.step s = .next t) (n : Nat) :
    M.run (n + 1) s = M.run n t := by
  rw [Host.Core.run, h]

theorem core_run_succ {s t : State} (h : step s = .next t) (n : Nat) :
    Sys2Proof.core.run (n + 1) s = Sys2Proof.core.run n t := run_succ_of_step Sys2Proof.core h n

/-- A state that steps to itself stays as it is. -/
theorem core_run_of_step_self {s : State} (h : step s = .next s) (n : Nat) : Sys2Proof.core.run n s = .next s := by
  induction n with
  | zero => rfl
  | succ n ih => rw [core_run_succ h]; exact ih

end Sys2Proof.Machine
end

