-- ==== Sys2Proof/Laws/Exec.lean ====
section
/-! SUPPORT. Said once: everything an instruction can do to the state. Facts about all instructions are derived from this
by cases on the effect, without unfolding a meaning again. -/

namespace Sys2Proof.Machine

/-- What an instruction `i` run in `s` can answer. -/
inductive Effect (i : Instr) (s : State) : State → Prop
  /-- It raises a fault, of a kind that neither the fetch nor an ALU byte outside the table raises. -/
  | fault (k : FaultKind) (hk : k ≠ .addressOutOfRange ∧ k ≠ .unsupportedAluOp) : Effect i s (s.setRun (.faulted k))
  /-- It writes one register, as the ALU operations but CMP, LDI and LD do. -/
  | register (j : Fin 8) (v : Byte) (hw : j ∈ i.writtenRegisters) (hp : i.op.setsPc = false)
      (hh : i.op ≠ .hlt) (hc : i.op ≠ .cmp) : Effect i s (s.setReg j v)
  /-- CMP. -/
  | flags (a b p q : Byte) (hi : i = .cmp a b) : Effect i s (s.setFl (cmpFlags p q))
  /-- PRN. -/
  | emit (r : Byte) (j : Fin 8) (hi : i = .prn r) (hr : r.toNat = j.val) : Effect i s (s.emit (s.reg j))
  /-- ST. -/
  | store (a b : Byte) (ra rb : Fin 8) (hi : i = .st a b) (hl : s.cfg.ldst = .implemented)
      (ha : a.toNat = ra.val) (hb : b.toNat = rb.val) : Effect i s (s.memWrite (s.reg ra) (s.reg rb))
  /-- PUSH. -/
  | push (r : Byte) (j : Fin 8) (hi : i = .push r) (hr : r.toNat = j.val) :
      Effect i s (s.decSp.memWrite s.decSp.sp (s.decSp.reg j))
  /-- POP. -/
  | pop (r : Byte) (j : Fin 8) (hi : i = .pop r) (hr : r.toNat = j.val) : Effect i s (s.loadTop j).incSp
  /-- CALL. -/
  | call (r : Byte) (j : Fin 8) (hi : i = .call r) (hr : r.toNat = j.val) :
      Effect i s ((s.decSp.memWrite s.decSp.sp s.returnAddress).setPc (s.decSp.reg j).toNat)
  /-- RET. -/
  | ret (hi : i = .ret) : Effect i s (s.setPc (s.memRead s.sp).toNat).incSp
  /-- A jump, taken to a byte address or not taken. -/
  | jump (p : Nat) (hp : p ≤ 255 ∨ p = s.pc + 2) (hi : i.op.setsPc = true) (hh : i.op ≠ .hlt) (hc : i.op ≠ .cmp) :
      Effect i s (s.setPc p)
  /-- HLT. -/
  | halt (hi : i = .hlt) : Effect i s (s.setRun .halted)

theorem Effect.of_binary {i : Instr} {f : Byte → Byte → Byte} {a b : Byte} {s t : State}
    (h : aluBinary f a b s = .next t) (hw : i.writtenRegisters = (regIndex? a).toList)
    (hp : i.op.setsPc = false) (hh : i.op ≠ .hlt) (hc : i.op ≠ .cmp) : Effect i s t := by
  rcases aluBinary_next h with ⟨j, _, hj, -, rfl⟩ | ⟨-, rfl⟩
  · exact .register j _ (by simp [hw, regIndex?_of_val hj]) hp hh hc
  · exact .fault _ (by decide)

theorem Effect.of_unary {i : Instr} {f : Byte → Byte} {a : Byte} {s t : State}
    (h : aluUnary f a s = .next t) (hw : i.writtenRegisters = (regIndex? a).toList)
    (hp : i.op.setsPc = false) (hh : i.op ≠ .hlt) (hc : i.op ≠ .cmp) : Effect i s t := by
  rcases aluUnary_next h with ⟨j, hj, rfl⟩ | ⟨-, rfl⟩
  · exact .register j _ (by simp [hw, regIndex?_of_val hj]) hp hh hc
  · exact .fault _ (by decide)

theorem Effect.of_divide {i : Instr} {f : Byte → Byte → Byte} {a b : Byte} {s t : State}
    (h : aluDivide f a b s = .next t) (hw : i.writtenRegisters = (regIndex? a).toList)
    (hp : i.op.setsPc = false) (hh : i.op ≠ .hlt) (hc : i.op ≠ .cmp) : Effect i s t := by
  rcases aluDivide_next h with ⟨j, _, hj, -, -, rfl⟩ | ⟨_, -, -, -, rfl⟩ | ⟨-, rfl⟩
  · exact .register j _ (by simp [hw, regIndex?_of_val hj]) hp hh hc
  · exact .fault _ (by decide)
  · exact .fault _ (by decide)

theorem Effect.of_jumpIf {i : Instr} {c : Bool} {r : Byte} {s t : State} (h : jumpIf c r s = .next t)
    (hi : i.op.setsPc = true) (hh : i.op ≠ .hlt) (hc : i.op ≠ .cmp) : Effect i s t := by
  rcases jumpIf_next h with ⟨-, j, -, rfl⟩ | ⟨-, -, rfl⟩ | ⟨-, rfl⟩
  · exact .jump _ (.inl (Nat.le_of_lt_succ (s.reg j).isLt)) hi hh hc
  · exact .fault _ (by decide)
  · exact .jump _ (.inr rfl) hi hh hc

/-- Everything an instruction can do. -/
theorem exec_effect {i : Instr} {s t : State} (h : exec i s = .next t) : Effect i s t := by
  cases i with
  | hlt => rw [← Host.Outcome.next.inj h]; exact .halt rfl
  | ret => rw [← Host.Outcome.next.inj h]; exact .ret rfl
  | push r =>
    rcases withReg_next h with ⟨j, hj, h⟩ | ⟨-, rfl⟩
    · rw [← Host.Outcome.next.inj h]; exact .push r j rfl hj
    · exact .fault _ (by decide)
  | pop r =>
    rcases withReg_next h with ⟨j, hj, h⟩ | ⟨-, rfl⟩
    · rw [← Host.Outcome.next.inj h]; exact .pop r j rfl hj
    · exact .fault _ (by decide)
  | prn r =>
    rcases withReg_next h with ⟨j, hj, h⟩ | ⟨-, rfl⟩
    · rw [← Host.Outcome.next.inj h]; exact .emit r j rfl hj
    · exact .fault _ (by decide)
  | call r =>
    rcases withReg_next h with ⟨j, hj, h⟩ | ⟨-, rfl⟩
    · rw [← Host.Outcome.next.inj h]; exact .call r j rfl hj
    · exact .fault _ (by decide)
  | jmp r => exact .of_jumpIf (c := true) h rfl nofun nofun
  | jeq r => exact .of_jumpIf h rfl nofun nofun
  | jne r => exact .of_jumpIf h rfl nofun nofun
  | jgt r => exact .of_jumpIf h rfl nofun nofun
  | jlt r => exact .of_jumpIf h rfl nofun nofun
  | jle r => exact .of_jumpIf h rfl nofun nofun
  | jge r => exact .of_jumpIf h rfl nofun nofun
  | inc a => exact .of_unary h rfl rfl nofun nofun
  | dec a => exact .of_unary h rfl rfl nofun nofun
  | not a => exact .of_unary h rfl rfl nofun nofun
  | ldi r imm =>
    rcases withReg_next h with ⟨j, hj, h⟩ | ⟨-, rfl⟩
    · rw [← Host.Outcome.next.inj h]
      exact .register j _ (by simp [Instr.writtenRegisters, regIndex?_of_val hj]) rfl nofun nofun
    · exact .fault _ (by decide)
  | ld a b =>
    rw [exec, execLd] at h
    rcases whenLdst_next h with ⟨-, h⟩ | ⟨-, rfl⟩
    · rcases withRegs_next h with ⟨j, _, hj, -, h⟩ | ⟨-, rfl⟩
      · rw [← Host.Outcome.next.inj h]
        exact .register j _ (by simp [Instr.writtenRegisters, regIndex?_of_val hj]) rfl nofun nofun
      · exact .fault _ (by decide)
    · exact .fault _ (by decide)
  | st a b =>
    rw [exec, execSt] at h
    rcases whenLdst_next h with ⟨hl, h⟩ | ⟨-, rfl⟩
    · rcases withRegs_next h with ⟨ra, rb, ha, hb, h⟩ | ⟨-, rfl⟩
      · rw [← Host.Outcome.next.inj h]
        exact .store a b ra rb rfl hl ha hb
      · exact .fault _ (by decide)
    · exact .fault _ (by decide)
  | add a b => exact .of_binary h rfl rfl nofun nofun
  | sub a b => exact .of_binary h rfl rfl nofun nofun
  | mul a b => exact .of_binary h rfl rfl nofun nofun
  | div a b => exact .of_divide h rfl rfl nofun nofun
  | mod a b => exact .of_divide h rfl rfl nofun nofun
  | cmp a b =>
    rcases withRegs_next h with ⟨_, _, -, -, h⟩ | ⟨-, rfl⟩
    · rw [← Host.Outcome.next.inj h]; exact .flags a b _ _ rfl
    · exact .fault _ (by decide)
  | and a b => exact .of_binary h rfl rfl nofun nofun
  | or a b => exact .of_binary h rfl rfl nofun nofun
  | xor a b => exact .of_binary h rfl rfl nofun nofun
  | shl a b => exact .of_binary h rfl rfl nofun nofun
  | shr a b => exact .of_binary h rfl rfl nofun nofun

end Sys2Proof.Machine
end

