-- ==== Sys2Proof/Laws/PerInstr.lean ====
section
/-! SUPPORT. Laws made per instruction: the operand bytes an encoder writes after the opcode byte of a conforming table
are the ones from which the decoder rebuilds the instruction. -/

namespace Sys2Proof.Laws.WindowRebuild

/-- From the window of its own encoding, whatever follows it, the instruction's name and operand bytes give it back. -/
def Statement (i : Instr) : Prop :=
  ∀ t : OpcodeTable, t.conforms = true → ∀ tail : List Byte,
    Instr.ofOp i.op (windowOf (encode t i ++ tail)).opA (windowOf (encode t i ++ tail)).opB = i

/-- The first operand byte of an encoding that has one is the instruction's. -/
theorem opA_eq {t : OpcodeTable} {i : Instr} {x : Byte} {xs : List Byte} (tail : List Byte)
    (h0 : i.operandBytes = x :: xs) (hn : 1 ≤ (decodeFields (t.byteOf i.op)).operandCount) :
    (windowOf (encode t i ++ tail)).opA = x := by
  obtain ⟨n, hn⟩ := Nat.exists_eq_add_of_le' hn
  simp [windowOf, encode, h0, hn]

/-- The second operand byte of an encoding that has two is the instruction's. -/
theorem opB_eq {t : OpcodeTable} {i : Instr} {x y : Byte} (tail : List Byte)
    (h0 : i.operandBytes = [x, y]) (hn : (decodeFields (t.byteOf i.op)).operandCount = 2) :
    (windowOf (encode t i ++ tail)).opB = y := by
  simp [windowOf, encode, h0, hn]

/-- An instruction with one operand byte, in a table that gives it at least one. -/
theorem of_one {i : Instr} {x : Byte} (hb : i.operandBytes = [x]) (hi : ∀ y, Instr.ofOp i.op x y = i)
    (hc : i.op.operandCounts.all (1 ≤ ·) = true) : Statement i := fun t ht tail => by
  rw [opA_eq tail hb (by simpa using List.all_eq_true.mp hc _ (OpcodeTable.operandCount_mem ht _))]
  exact hi _

/-- An instruction with two operand bytes. -/
theorem of_two {i : Instr} {x y : Byte} (hb : i.operandBytes = [x, y]) (hi : Instr.ofOp i.op x y = i)
    (hc : i.op.operandCounts = [2]) : Statement i := fun t ht tail => by
  have hn : (decodeFields (t.byteOf i.op)).operandCount = 2 := by
    simpa [hc] using OpcodeTable.operandCount_mem ht i.op
  rw [opA_eq tail hb (by omega), opB_eq tail hb hn]
  exact hi

theorem hlt : Statement .hlt := fun _ _ _ => rfl

theorem ret : Statement .ret := fun _ _ _ => rfl

theorem push (r : Byte) : Statement (.push r) := of_one rfl (fun _ => rfl) rfl

theorem pop (r : Byte) : Statement (.pop r) := of_one rfl (fun _ => rfl) rfl

theorem prn (r : Byte) : Statement (.prn r) := of_one rfl (fun _ => rfl) rfl

theorem call (r : Byte) : Statement (.call r) := of_one rfl (fun _ => rfl) rfl

theorem jmp (r : Byte) : Statement (.jmp r) := of_one rfl (fun _ => rfl) rfl

theorem jeq (r : Byte) : Statement (.jeq r) := of_one rfl (fun _ => rfl) rfl

theorem jne (r : Byte) : Statement (.jne r) := of_one rfl (fun _ => rfl) rfl

theorem jgt (r : Byte) : Statement (.jgt r) := of_one rfl (fun _ => rfl) rfl

theorem jlt (r : Byte) : Statement (.jlt r) := of_one rfl (fun _ => rfl) rfl

theorem jle (r : Byte) : Statement (.jle r) := of_one rfl (fun _ => rfl) rfl

theorem jge (r : Byte) : Statement (.jge r) := of_one rfl (fun _ => rfl) rfl

theorem inc (r : Byte) : Statement (.inc r) := of_one rfl (fun _ => rfl) rfl

theorem dec (r : Byte) : Statement (.dec r) := of_one rfl (fun _ => rfl) rfl

theorem not (r : Byte) : Statement (.not r) := of_one rfl (fun _ => rfl) rfl

theorem ldi (a b : Byte) : Statement (.ldi a b) := of_two rfl rfl rfl

theorem ld (a b : Byte) : Statement (.ld a b) := of_two rfl rfl rfl

theorem st (a b : Byte) : Statement (.st a b) := of_two rfl rfl rfl

theorem add (a b : Byte) : Statement (.add a b) := of_two rfl rfl rfl

theorem sub (a b : Byte) : Statement (.sub a b) := of_two rfl rfl rfl

theorem mul (a b : Byte) : Statement (.mul a b) := of_two rfl rfl rfl

theorem div (a b : Byte) : Statement (.div a b) := of_two rfl rfl rfl

theorem mod (a b : Byte) : Statement (.mod a b) := of_two rfl rfl rfl

theorem cmp (a b : Byte) : Statement (.cmp a b) := of_two rfl rfl rfl

theorem and (a b : Byte) : Statement (.and a b) := of_two rfl rfl rfl

theorem or (a b : Byte) : Statement (.or a b) := of_two rfl rfl rfl

theorem xor (a b : Byte) : Statement (.xor a b) := of_two rfl rfl rfl

theorem shl (a b : Byte) : Statement (.shl a b) := of_two rfl rfl rfl

theorem shr (a b : Byte) : Statement (.shr a b) := of_two rfl rfl rfl

end Sys2Proof.Laws.WindowRebuild
end

