-- ==== Sys2Proof/Tests/Slice0.lean ====
section
/-! SUPPORT. The session's own tests, each on one step or one word, with the result taken from the spec (the vectors of
spec/95_test_vectors.md and the examples of the instruction files), and a witness for the hypotheses of each
statement. -/

namespace Sys2Proof.Tests

open Sys2Proof Sys2Proof.Machine

/-! ## Helpers -/

/-- The next state of an outcome, if it is one. -/
def after : Result → Option State
  | .next t => some t
  | .fault _ | .refused _ => none

/-- The state after reset with an image at 0, pc at `pc`, for LDST_SUPPORT = `l`. -/
def start (l : LdstSupport) (pc : Nat) (bytes : List Byte) : State :=
  { State.resetWith ⟨OpcodeTable.default, l⟩ with mem := Memory.load [] pc bytes, pc := pc }

/-- What `f` says of the state one step after a program of the default machine, its registers and memory set by `g`. -/
def oneStep {α : Type} (bytes : List Byte) (g : State → State) (f : State → α) : Option α :=
  (after (step (g (start .unsupported 0 bytes)))).map f

theorem exists_next_of {r : Result} {p : State → Bool} (h : (after r).any p = true) :
    ∃ t, r = .next t ∧ p t = true := by
  cases r with
  | next t => exact ⟨t, rfl, h⟩
  | fault _ => cases h
  | refused _ => cases h

/-! ## Decoding: the words of R73 and R78, one for each constructor -/

theorem test_decode_no_operand :
    decodeTableWord 8 0b00000001 = some .hlt ∧ decodeTableWord 8 0b00010001 = some .ret := by decide

theorem test_decode_stack_and_output :
    decodeTableWord 16 0b00000011_01000101 = some (.push 3) ∧
    decodeTableWord 16 0b00000111_01000110 = some (.pop 7) ∧
    decodeTableWord 16 0b11001000_01000111 = some (.prn 200) ∧
    decodeTableWord 16 0b00000001_01010000 = some (.call 1) := by decide

theorem test_decode_jumps :
    decodeTableWord 16 0b00000010_01010100 = some (.jmp 2) ∧ decodeTableWord 16 0b00000010_01010101 = some (.jeq 2) ∧
    decodeTableWord 16 0b00000010_01010110 = some (.jne 2) ∧ decodeTableWord 16 0b00000010_01010111 = some (.jgt 2) ∧
    decodeTableWord 16 0b00000010_01011000 = some (.jlt 2) ∧ decodeTableWord 16 0b00000010_01011001 = some (.jle 2) ∧
    decodeTableWord 16 0b00000010_01011010 = some (.jge 2) := by decide

theorem test_decode_unary :
    decodeTableWord 16 0b00000101_01100101 = some (.inc 5) ∧ decodeTableWord 16 0b00000101_01100110 = some (.dec 5) ∧
    decodeTableWord 16 0b00000101_01101001 = some (.not 5) := by decide

theorem test_decode_data_movement :
    decodeTableWord 24 0b11111111_00000001_10000010 = some (.ldi 1 255) ∧
    decodeTableWord 24 0b00000010_00000001_10000011 = some (.ld 1 2) ∧
    decodeTableWord 24 0b00000010_00000001_10000100 = some (.st 1 2) := by decide

theorem test_decode_arithmetic :
    decodeTableWord 24 0b00000010_00000001_10100000 = some (.add 1 2) ∧
    decodeTableWord 24 0b00000010_00000001_10100001 = some (.sub 1 2) ∧
    decodeTableWord 24 0b00000010_00000001_10100010 = some (.mul 1 2) ∧
    decodeTableWord 24 0b00000010_00000001_10100011 = some (.div 1 2) ∧
    decodeTableWord 24 0b00000010_00000001_10100100 = some (.mod 1 2) ∧
    decodeTableWord 24 0b00000010_00000001_10100111 = some (.cmp 1 2) := by decide

theorem test_decode_logic_and_shifts :
    decodeTableWord 24 0b00000010_00000001_10101000 = some (.and 1 2) ∧
    decodeTableWord 24 0b00000010_00000001_10101010 = some (.or 1 2) ∧
    decodeTableWord 24 0b00000010_00000001_10101011 = some (.xor 1 2) ∧
    decodeTableWord 24 0b00000010_00000001_10101100 = some (.shl 1 2) ∧
    decodeTableWord 24 0b00000010_00000001_10101101 = some (.shr 1 2) := by decide

/-- 95_test_vectors.md section 2.1: the illegal bytes and their kinds. -/
theorem test_decode_rejects_by_name :
    decode .default ⟨0x00, 0, 0⟩ = .error .unsupportedOpcode ∧ decode .default ⟨0xAE, 0, 0⟩ = .error .unsupportedAluOp ∧
    decode .default ⟨0xB0, 0, 0⟩ = .error .unsupportedAluOp ∧ decode .default ⟨0xC0, 0, 0⟩ = .error .unsupportedOpcode ∧
    decode .default ⟨0xE5, 0, 0⟩ = .error .unsupportedAluOp := ⟨rfl, rfl, rfl, rfl, rfl⟩

/-- 95_test_vectors.md section 2.1: fields and lengths. -/
theorem test_fields :
    decodeFields 0x5A = ⟨1, false, true, 0b1010⟩ ∧ decodeFields 0x69 = ⟨1, true, false, 0b1001⟩ ∧
    decodeFields 0xAB = ⟨2, true, false, 0b1011⟩ ∧ instrLength 0x82 = 3 ∧ instrLength 0x11 = 1 ∧
    instrLength 0xC0 = 4 := by decide

/-- R85 and W2: the encoder, on the first three instructions of scenario 2. -/
theorem test_encode :
    encode .default (.ldi 0 5) ++ encode .default (.add 0 1) ++ encode .default (.prn 0) =
      [0x82, 0x00, 0x05, 0xA0, 0x00, 0x01, 0x47, 0x00] := by decide

/-- R13, R85. -/
theorem test_asm :
    Instr.asm (.ldi 0 8) = "LDI R0,8" ∧ Instr.asm (.add 0 1) = "ADD R0,R1" ∧ Instr.asm (.prn 0) = "PRN R0" ∧
    Instr.asm .hlt = "HLT" := by decide

/-! ## WellFormed: an ill-formed term for each place of the check -/

theorem test_ill_formed_terms_are_refused :
    Instr.wellFormed (.push 8) = false ∧ Instr.wellFormed (.inc 255) = false ∧ Instr.wellFormed (.ldi 8 0) = false ∧
    Instr.wellFormed (.add 8 0) = false ∧ Instr.wellFormed (.add 0 8) = false ∧ Instr.wellFormed (.jeq 9) = false := by
  decide

theorem test_well_formed_terms_pass :
    Instr.wellFormed (.ldi 7 255) = true ∧ Instr.wellFormed (.st 7 0) = true ∧ Instr.wellFormed .ret = true := by decide

/-! ## Opcode tables -/

/-- A table that gives INC, DEC and NOT two operand bytes. -/
def twoByteUnary : OpcodeTable := { OpcodeTable.default with inc := 0xA5, dec := 0xA6, not := 0xA9 }

theorem test_two_byte_unary_conforms : twoByteUnary.conforms = true := by decide

theorem test_two_byte_unary_encodes : encode twoByteUnary (.inc 3) = [0xA5, 3, 0] := by decide

/-- R79: a wrong operand count, a wrong B, a wrong C, two equal bytes, the decimal XOR of 90_conflicts.md C7. -/
theorem test_non_conforming_tables :
    OpcodeTable.conforms { OpcodeTable.default with ldi := 0x42 } = false ∧
    OpcodeTable.conforms { OpcodeTable.default with prn := 0x67 } = false ∧
    OpcodeTable.conforms { OpcodeTable.default with jmp := 0x44 } = false ∧
    OpcodeTable.conforms { OpcodeTable.default with add := 0xA1 } = false ∧
    OpcodeTable.conforms { OpcodeTable.default with xor := 0xA9 } = false := by decide

/-! ## The ALU (95_test_vectors.md section 2.2): x[0] = p, x[1] = q, `op 00 01` -/

/-- The registers of the ALU vectors. -/
def pq (p q : Byte) (s : State) : State := (s.setReg 0 p).setReg 1 q

theorem test_add_wraps : oneStep [0xA0, 0, 1] (pq 0xC8 0x64) (fun t => (t.reg 0, t.reg 1, t.pc)) =
    some (0x2C, 0x64, 3) := by decide

theorem test_sub_wraps : oneStep [0xA1, 0, 1] (pq 0x03 0x05) (fun t => (t.reg 0, t.fl)) = some (0xFE, 0) := by decide

theorem test_mul_keeps_low_byte : oneStep [0xA2, 0, 1] (pq 0x14 0x0D) (fun t => t.reg 0) = some 0x04 := by decide

theorem test_mul_largest : oneStep [0xA2, 0, 1] (pq 0xFF 0xFF) (fun t => t.reg 0) = some 0x01 := by decide

theorem test_div : oneStep [0xA3, 0, 1] (pq 0xC8 0x07) (fun t => t.reg 0) = some 0x1C := by decide

theorem test_div_by_zero : oneStep [0xA3, 0, 1] (pq 9 0) (fun t => (t.reg 0, t.run, t.pc)) =
    some (9, .faulted .divideByZero, 0) := by decide

theorem test_mod : oneStep [0xA4, 0, 1] (pq 0xC8 0x07) (fun t => t.reg 0) = some 0x04 := by decide

theorem test_mod_by_zero : oneStep [0xA4, 0, 1] (pq 9 0) (fun t => (t.reg 0, t.run, t.pc)) =
    some (9, .faulted .divideByZero, 0) := by decide

theorem test_and : oneStep [0xA8, 0, 1] (pq 0xF0 0x3C) (fun t => t.reg 0) = some 0x30 := by decide

theorem test_or : oneStep [0xAA, 0, 1] (pq 0xF0 0x3C) (fun t => t.reg 0) = some 0xFC := by decide

theorem test_xor : oneStep [0xAB, 0, 1] (pq 0xF0 0x3C) (fun t => t.reg 0) = some 0xCC := by decide

theorem test_shl_last_bit : oneStep [0xAC, 0, 1] (pq 0x01 0x07) (fun t => t.reg 0) = some 0x80 := by decide

theorem test_shl_by_eight : oneStep [0xAC, 0, 1] (pq 0x01 0x08) (fun t => t.reg 0) = some 0x00 := by decide

theorem test_shr : oneStep [0xAD, 0, 1] (pq 0x81 0x04) (fun t => t.reg 0) = some 0x08 := by decide

theorem test_shr_by_eight : oneStep [0xAD, 0, 1] (pq 0x80 0x08) (fun t => t.reg 0) = some 0x00 := by decide

theorem test_cmp_is_unsigned : oneStep [0xA7, 0, 1] (fun s => (pq 0xFF 0x01 s).setFl 0b111) (fun t => (t.reg 0, t.fl)) =
    some (0xFF, 0b010) := by decide

theorem test_cmp_equal_and_less :
    oneStep [0xA7, 0, 1] (fun s => (pq 5 5 s).setFl 0b111) (fun t => t.fl) = some 0b001 ∧
    oneStep [0xA7, 0, 1] (fun s => (pq 0 0xFF s).setFl 0b111) (fun t => t.fl) = some 0b100 := by decide

/-- The byte 0xFF at pc + 2 is no operand and does not fault. -/
theorem test_inc_wraps_and_ignores_next : oneStep [0x65, 0, 0xFF] (pq 0xFF 0) (fun t => (t.reg 0, t.pc, t.run)) =
    some (0x00, 2, .running) := by decide

theorem test_dec_wraps : oneStep [0x66, 0, 0xFF] (pq 0 0) (fun t => (t.reg 0, t.pc)) = some (0xFF, 2) := by decide

theorem test_not : oneStep [0x69, 0, 0xFF] (pq 0x0F 0) (fun t => (t.reg 0, t.pc)) = some (0xF0, 2) := by decide

/-- Section 2.2, last paragraph: both operands R2 = 3. -/
theorem test_same_register :
    oneStep [0xA2, 2, 2] (·.setReg 2 3) (fun t => t.reg 2) = some 9 ∧
    oneStep [0xAC, 2, 2] (·.setReg 2 3) (fun t => t.reg 2) = some 24 := by decide

/-! ## Data movement (section 2.3) -/

theorem test_ldi : oneStep [0x82, 0x07, 0x10] id (fun t => (t.reg 7, t.pc)) = some (0x10, 3) := by decide

theorem test_ldi_bad_register : oneStep [0x82, 0x08, 0x01] id (fun t => (t.run, t.pc)) =
    some (.faulted .registerIndexOutOfRange, 0) := by decide

theorem test_prn : oneStep [0x47, 0x07] id (fun t => (t.out, t.pc)) = some ([0xF4], 2) := by decide

theorem test_ld : (after (step ((start .implemented 0 [0x83, 0, 1]).setReg 1 0x01))).map (fun t => (t.reg 0, t.pc)) =
    some (0x00, 3) ∧
    (after (step ((start .implemented 0 [0x83, 0, 1]).setReg 1 0x02))).map (fun t => t.reg 0) = some 0x01 := by decide

theorem test_st :
    (after (step (((start .implemented 0 [0x84, 0, 1]).setReg 0 0x10).setReg 1 0x2A))).map
      (fun t => (t.memRead 0x10, t.pc)) = some (0x2A, 3) := by decide

theorem test_ld_and_st_unsupported :
    oneStep [0x84, 0, 0] id (fun t => (t.run, t.pc)) = some (.faulted .unsupportedOpcode, 0) ∧
    oneStep [0x83, 9, 9] id (fun t => (t.run, t.pc)) = some (.faulted .unsupportedOpcode, 0) := by decide

/-! ## Stack (section 2.4) -/

theorem test_push : oneStep [0x45, 0] (·.setReg 0 42) (fun t => (t.sp, t.memRead 0xF3, t.pc)) = some (0xF3, 42, 2) := by
  decide

theorem test_push_sp : oneStep [0x45, 7] id (fun t => (t.sp, t.memRead 0xF3)) = some (0xF3, 0xF3) := by decide

theorem test_pop : oneStep [0x46, 1] (fun s => (s.setReg 7 0xF3).memWrite 0xF3 42) (fun t => (t.reg 1, t.sp, t.pc)) =
    some (42, 0xF4, 2) := by decide

theorem test_pop_sp : oneStep [0x46, 7] (fun s => (s.setReg 7 0xF3).memWrite 0xF3 42) (fun t => t.sp) = some 43 := by
  decide

theorem test_call : oneStep [0x50, 1] (·.setReg 1 0x20) (fun t => (t.sp, t.memRead 0xF3, t.pc)) =
    some (0xF3, 2, 0x20) := by decide

theorem test_call_sp : oneStep [0x50, 7] id (fun t => (t.sp, t.memRead 0xF3, t.pc)) = some (0xF3, 2, 0xF3) := by decide

theorem test_ret : oneStep [0x11] (fun s => (s.setReg 7 0xF3).memWrite 0xF3 8) (fun t => (t.pc, t.sp)) =
    some (8, 0xF4) := by decide

theorem test_ret_unbalanced : oneStep [0x11] id (fun t => (t.pc, t.sp, t.run)) = some (0, 0xF5, .running) := by decide

/-! ## Jumps (section 2.5): at 0x10 with operand R3, x[3] = 0x40 -/

/-- The pc after a jump with the FL value `f`. -/
def jumpPc (op f : Byte) : Option Nat :=
  (after (step (((start .unsupported 0x10 [op, 3]).setReg 3 0x40).setFl f))).map fun t => t.pc

theorem test_jmp : [0, 1, 2, 4].map (jumpPc 0x54) = [some 0x40, some 0x40, some 0x40, some 0x40] := by decide

theorem test_jeq : [0, 1, 2, 4].map (jumpPc 0x55) = [some 0x12, some 0x40, some 0x12, some 0x12] := by decide

theorem test_jne : [0, 1, 2, 4].map (jumpPc 0x56) = [some 0x40, some 0x12, some 0x40, some 0x40] := by decide

theorem test_jgt : [0, 1, 2, 4].map (jumpPc 0x57) = [some 0x12, some 0x12, some 0x40, some 0x12] := by decide

theorem test_jlt : [0, 1, 2, 4].map (jumpPc 0x58) = [some 0x12, some 0x12, some 0x12, some 0x40] := by decide

theorem test_jle : [0, 1, 2, 4].map (jumpPc 0x59) = [some 0x12, some 0x40, some 0x12, some 0x40] := by decide

theorem test_jge : [0, 1, 2, 4].map (jumpPc 0x5A) = [some 0x12, some 0x40, some 0x40, some 0x12] := by decide

theorem test_jump_operand_is_checked_only_when_taken :
    oneStep [0x55, 9] id (fun t => (t.run, t.pc)) = some (.running, 2) ∧
    oneStep [0x56, 9] id (fun t => (t.run, t.pc)) = some (.faulted .registerIndexOutOfRange, 0) := by decide

/-! ## Halt, fetch range, priority (sections 2.6 and 2.7) -/

theorem test_hlt_at_253 : (after (step (start .unsupported 253 [0x01]))).map (fun t => (t.run, t.pc)) =
    some (.halted, 254) := by decide

theorem test_hlt_at_254_faults : (after (step (start .unsupported 254 [0x01]))).map (fun t => (t.run, t.pc)) =
    some (.faulted .addressOutOfRange, 254) := by decide

theorem test_ldi_at_253 : (after (step (start .unsupported 253 [0x82, 0x00, 0x01]))).map (fun t => (t.reg 0, t.pc)) =
    some (1, 256) := by decide

theorem test_fault_priority :
    oneStep [0xA3, 9, 1] id (fun t => t.run) = some (.faulted .registerIndexOutOfRange) ∧
    oneStep [0xA3, 0, 9] id (fun t => t.run) = some (.faulted .registerIndexOutOfRange) ∧
    oneStep [0xAE, 0, 1] id (fun t => t.run) = some (.faulted .unsupportedAluOp) ∧
    oneStep [0x00] id (fun t => t.run) = some (.faulted .unsupportedOpcode) := by decide

theorem test_terminal_states_stay :
    oneStep [0x01] (·.setRun .halted) (fun t => (t.run, t.pc)) = some (.halted, 0) := by decide

/-! ## Reset and host -/

theorem test_fault_codes :
    (State.reset.setRun (.faulted .registerIndexOutOfRange)).faultCode = some 5 ∧ State.reset.faultCode = none := by
  decide

theorem test_fetch_word : (after (step (State.reset.withFetchWord 24 0x080082))).map (fun t => (t.reg 0, t.pc)) =
    some (8, 3) := by decide

/-! ## Witnesses: a state and operands that meet the hypotheses of each statement -/

theorem witness_OpcodeByteFieldsAreItsBits :
    OpcodeTable.default.conforms = true ∧ (decodeFields (⟨0xC0, 0, 0⟩ : Window).ir).operandCount = 3 := by decide

theorem witness_EncodingLengthIsOnePlusOperandCount :
    OpcodeTable.default.conforms = true ∧ twoByteUnary.conforms = true := by decide

theorem witness_NonConformingTableIsRefused :
    (State.resetWith ⟨{ OpcodeTable.default with xor := 0xA9 }, .unsupported⟩).run = .running ∧
    (State.resetWith ⟨{ OpcodeTable.default with xor := 0xA9 }, .unsupported⟩).cfg.table.conforms = false := by decide

theorem witness_DispatchIsKeyedOnTheWholeByte :
    OpcodeTable.default.conforms = true ∧ (⟨0x11, 0, 0⟩ : Window).ir = OpcodeTable.default.byteOf .ret := by decide

theorem witness_DecodeOfEncodeIsTheInstruction : twoByteUnary.conforms = true := by decide

theorem witness_EncodeOfDecodeIsTheBytes :
    OpcodeTable.default.conforms = true ∧
    (∀ o ∈ [Op.inc, .dec, .not], (decodeFields (OpcodeTable.default.byteOf o)).operandCount = 1) ∧
    decode OpcodeTable.default ⟨0x65, 255, 9⟩ = .ok (.inc 255) := ⟨by decide, by decide, rfl⟩

theorem witness_IllegalBytesEndTheRun :
    (∃ s w, s.run = .running ∧ s.cfg.table.conforms = true ∧ fetchWindow s = some w ∧ w.ir.getLsbD 5 = false ∧
      ∀ o, s.cfg.table.byteOf o ≠ w.ir) ∧
    (∃ s w, s.run = .running ∧ s.cfg.table.conforms = true ∧ fetchWindow s = some w ∧ w.ir.getLsbD 5 = true ∧
      ∀ o, s.cfg.table.byteOf o ≠ w.ir) ∧
    ((decodeFields 0xC0).operandCount = 3 ∧ (decodeFields 0xB0).alu = true ∧ (decodeFields 0xB0).pcSet = true) ∧
    State.reset.cfg.ldst = .unsupported :=
  ⟨⟨start .unsupported 0 [0x00], ⟨0x00, 0, 0⟩, rfl, by decide, by decide, by decide, fun o => by cases o <;> decide⟩,
    ⟨start .unsupported 0 [0xAE, 0, 1], ⟨0xAE, 0, 1⟩, rfl, by decide, by decide, by decide,
      fun o => by cases o <;> decide⟩, by decide, rfl⟩

theorem witness_LaunchPlacesTheImageFromZero :
    (List.replicate 256 (0x01 : Byte)).length ≤ 256 ∧ 256 < (List.replicate 257 (0x01 : Byte)).length := by
  rw [List.length_replicate, List.length_replicate]; decide

theorem witness_ReadGivesTheLatestWrite : State.reset.mem.wf = true ∧ (0xFF : Byte) ≠ 0x00 := by decide

theorem witness_FetchSeesWrittenBytes :
    (start .unsupported 253 [0x01]).mem.wf = true ∧ (start .unsupported 253 [0x01]).pc ≤ 253 ∧
    (255 : Byte).toNat = (start .unsupported 253 [0x01]).pc + 2 := by decide

theorem witness_FetchReadsThreeConsecutiveBytes : (start .unsupported 253 []).pc ≤ 253 := by decide

theorem witness_FetchAboveTheTopFaults :
    (start .unsupported 254 []).run = .running ∧ (start .unsupported 254 []).cfg.table.conforms = true ∧
    253 < (start .unsupported 254 []).pc ∧ (start .unsupported 253 []).run = .running ∧
    (start .unsupported 253 []).cfg.table.conforms = true ∧ (start .unsupported 253 []).pc ≤ 253 := by decide

/-- ADD (C = 0) and JMP (C = 1) dispatched in states of the default machine. -/
theorem dispatches_add : Dispatches (start .unsupported 0 [0xA0, 0, 1]) ⟨0xA0, 0, 1⟩ (.add 0 1) :=
  ⟨rfl, by decide, by decide, rfl⟩

theorem dispatches_jmp : Dispatches (start .unsupported 0 [0x54, 0]) ⟨0x54, 0, 0⟩ (.jmp 0) :=
  ⟨rfl, by decide, by decide, rfl⟩

theorem dispatches_cmp : Dispatches (start .unsupported 0 [0xA7, 0, 7]) ⟨0xA7, 0, 7⟩ (.cmp 0 7) :=
  ⟨rfl, by decide, by decide, rfl⟩

theorem dispatches_hlt : Dispatches (start .unsupported 253 [0x01]) ⟨0x01, 0, 0⟩ .hlt :=
  ⟨rfl, by decide, by decide, rfl⟩

theorem witness_StepRunsTheDecodedInstruction : ∃ s w i t, s.run = .running ∧ s.cfg.table.conforms = true ∧
    fetchWindow s = some w ∧ decode s.cfg.table w = .ok i ∧ exec i s = .next t ∧ (∀ k, t.run ≠ .faulted k) ∧
    (decodeFields w.ir).pcSet = false :=
  ⟨_, _, _, _, dispatches_add.running, dispatches_add.conforms, dispatches_add.fetched, dispatches_add.decoded, rfl,
    fun k => by cases k <;> decide, by decide⟩

theorem witness_StepRunsTheDecodedInstruction_fault : ∃ s w i t, s.run = .running ∧ s.cfg.table.conforms = true ∧
    fetchWindow s = some w ∧ decode s.cfg.table w = .ok i ∧ exec i s = .next t ∧
    t.run = .faulted .registerIndexOutOfRange :=
  ⟨start .unsupported 0 [0xA0, 8, 1], ⟨0xA0, 8, 1⟩, .add 8 1, _, rfl, by decide, by decide, rfl, rfl, rfl⟩

theorem witness_PcAdvancesByLengthUnlessSet :
    (∃ s w i t, Dispatches s w i ∧ step s = .next t ∧ t.run = .running ∧ (decodeFields w.ir).pcSet = false) ∧
    (∃ s w i t, Dispatches s w i ∧ step s = .next t ∧ t.run = .running ∧ (decodeFields w.ir).pcSet = true) := by
  obtain ⟨t, h, hp⟩ := exists_next_of (r := step (start .unsupported 0 [0xA0, 0, 1]))
    (p := fun t => t.run == .running) (by decide)
  obtain ⟨u, hu, hq⟩ := exists_next_of (r := step (start .unsupported 0 [0x54, 0]))
    (p := fun t => t.run == .running) (by decide)
  exact ⟨⟨_, _, _, t, dispatches_add, h, by simpa using hp, by decide⟩,
    ⟨_, _, _, u, dispatches_jmp, hu, by simpa using hq, by decide⟩⟩

theorem witness_EveryStepHasANextState :
    State.reset.cfg.table.conforms = true ∧ (State.reset.setRun .halted).run ≠ .running := by decide

theorem witness_OnlyHltHalts :
    (∃ t, step (start .unsupported 253 [0x01]) = .next t ∧ (t.run == .halted) = true) ∧
    (∃ w, Dispatches (start .unsupported 253 [0x01]) w .hlt) :=
  ⟨exists_next_of (by decide), ⟨_, dispatches_hlt⟩⟩

theorem witness_JumpToItselfNeverEnds :
    Dispatches (start .unsupported 0 [0x54, 0]) ⟨0x54, 0, 0⟩ (.jmp 0) ∧ (0 : Byte).toNat = (0 : Fin 8).val ∧
    ((start .unsupported 0 [0x54, 0]).reg 0).toNat = (start .unsupported 0 [0x54, 0]).pc :=
  ⟨dispatches_jmp, by decide, by decide⟩

theorem witness_FaultsArePrecise :
    (start .unsupported 0 [0xA3, 0, 1]).run = .running ∧
    ∃ t, step (start .unsupported 0 [0xA3, 0, 1]) = .next t ∧ (t.run == .faulted .divideByZero) = true :=
  ⟨rfl, exists_next_of (by decide)⟩

theorem witness_FirstFailedCheckIsTheFault :
    State.reset.run = .running ∧ State.reset.cfg.table.conforms = true ∧
    State.reset.expectedFault = some .unsupportedOpcode ∧
    (start .unsupported 254 []).expectedFault = some .addressOutOfRange ∧
    (start .unsupported 0 [0xA3, 8, 1]).expectedFault = some .registerIndexOutOfRange ∧
    (start .unsupported 0 [0xA3, 0, 1]).expectedFault = some .divideByZero ∧
    (start .unsupported 0 [0x55, 9]).expectedFault = none := by decide

theorem witness_WellFormedInstructionsNameRegisters :
    Instr.wellFormed (.add 0 7) = true ∧ State.reset.run = .running := by decide

theorem reset_inv : State.reset.Inv := ⟨by decide, by decide, by decide, by decide⟩

theorem witness_StepKeepsTheInvariant : State.reset.Inv ∧ ∃ t, step State.reset = .next t ∧ true = true :=
  ⟨reset_inv, exists_next_of (p := fun _ => true) (by decide)⟩

theorem witness_ResetAndLaunchMeetTheInvariant :
    Config.default.table.conforms = true ∧ (launch Config.default [0x01]).isSome = true := by decide

theorem witness_OnlyCmpWritesFlags :
    (∃ t, step (start .unsupported 0 [0xA7, 0, 7]) = .next t ∧
      (t.fl != (start .unsupported 0 [0xA7, 0, 7]).fl && t.run == .running) = true) ∧
    Dispatches (start .unsupported 0 [0xA7, 0, 7]) ⟨0xA7, 0, 7⟩ (.cmp 0 7) :=
  ⟨exists_next_of (by decide), dispatches_cmp⟩

theorem witness_OnlyConditionalJumpsReadFlags :
    Instr.isConditionalJump (.cmp 0 1) = false ∧ Instr.isConditionalJump (.jmp 0) = false := by decide

theorem witness_OnlyListedRegistersAreWritten :
    (∃ t, exec (.pop 1) State.reset = .next t) ∧ (0 : Fin 8) ∉ Instr.writtenRegisters (.pop 1) :=
  ⟨⟨_, rfl⟩, by decide⟩

theorem witness_OnlyStoresWriteMemory :
    State.reset.mem.wf = true ∧
    (∃ t, exec (.push 7) State.reset = .next t ∧ (t.memRead 0xF3 != State.reset.memRead 0xF3) = true) ∧
    (∃ t, exec (.st 7 7) (start .implemented 0 []) = .next t ∧
      (t.memRead 0xF4 != (start .implemented 0 []).memRead 0xF4) = true) :=
  ⟨by decide, exists_next_of (by decide), exists_next_of (by decide)⟩

theorem witness_OnlyPrnEmits :
    ∃ t, exec (.prn 7) State.reset = .next t ∧ (t.out != State.reset.out) = true := exists_next_of (by decide)

theorem witness_StepKeepsTheParameters : ∃ t, step State.reset = .next t ∧ true = true :=
  exists_next_of (p := fun _ => true) (by decide)

/-- The hypotheses on operand bytes of the statements about one instruction: a byte that names a register, at both
ends of the range, and a byte above 7, at both ends of its range. -/
theorem witness_operand_bytes :
    (0 : Byte).toNat = (0 : Fin 8).val ∧ (7 : Byte).toNat = (7 : Fin 8).val ∧ 7 < (8 : Byte).toNat ∧
    7 < (255 : Byte).toNat := by decide

theorem witness_AddSubMulWrapModulo256 : (7 : Byte).toNat = (7 : Fin 8).val ∧ 7 < (8 : Byte).toNat := by decide

theorem witness_DivModDivideOrFault :
    (7 : Byte).toNat = (7 : Fin 8).val ∧ (0 : Byte).toNat = (0 : Fin 8).val ∧ State.reset.reg 7 ≠ 0 ∧
    State.reset.reg 0 = 0 ∧ 7 < (8 : Byte).toNat := by decide

theorem witness_IncDecNotUseOneRegister : (7 : Byte).toNat = (7 : Fin 8).val ∧ 7 < (8 : Byte).toNat := by decide

theorem witness_AndOrXorAreBitwise : (0 : Byte).toNat = (0 : Fin 8).val ∧ 7 < (8 : Byte).toNat := by decide

theorem witness_ShiftsUseTheWholeAmount : (0 : Byte).toNat = (0 : Fin 8).val ∧ 7 < (255 : Byte).toNat := by decide

theorem witness_CmpWritesFlagsUnsigned :
    (0 : Byte).toNat = (0 : Fin 8).val ∧ (7 : Byte).toNat = (7 : Fin 8).val ∧
    (State.reset.reg 0).toNat = (State.reset.reg 1).toNat ∧ (State.reset.reg 7).toNat > (State.reset.reg 0).toNat ∧
    (State.reset.reg 0).toNat < (State.reset.reg 7).toNat ∧ 7 < (8 : Byte).toNat := by decide

theorem witness_CmpIsAntisymmetric :
    (0 : Byte).toNat = (0 : Fin 8).val ∧ (1 : Byte).toNat = (1 : Fin 8).val ∧
    (pq 3 5 State.reset).reg 0 = (pq 5 3 State.reset).reg 1 ∧
    (pq 3 5 State.reset).reg 1 = (pq 5 3 State.reset).reg 0 := by decide

theorem witness_QuotientAndRemainderRebuildTheDividend :
    (0 : Byte).toNat = (0 : Fin 8).val ∧ (7 : Byte).toNat = (7 : Fin 8).val ∧ State.reset.reg 7 ≠ 0 := by decide

theorem witness_LdiLoadsTheImmediate :
    (7 : Byte).toNat = (7 : Fin 8).val ∧ 7 < (8 : Byte).toNat ∧ (7 : Byte).toNat ≤ 7 ∧
    Dispatches (start .unsupported 0 [0x82, 7, 255]) ⟨0x82, 7, 255⟩ (.ldi 7 255) :=
  ⟨by decide, by decide, by decide, rfl, by decide, by decide, rfl⟩

theorem witness_PrnAppendsTheRegister : (7 : Byte).toNat = (7 : Fin 8).val ∧ 7 < (8 : Byte).toNat := by decide

theorem witness_LdAndStMoveOneByteWhenImplemented :
    (start .implemented 0 []).cfg.ldst = .implemented ∧ (start .implemented 0 []).mem.wf = true ∧
    (0 : Byte).toNat = (0 : Fin 8).val ∧ (7 : Byte).toNat = (7 : Fin 8).val ∧ 7 < (8 : Byte).toNat := by decide

theorem witness_LdAndStAreRejectedWhenUnsupported :
    (start .unsupported 0 [0x83]).run = .running ∧ (start .unsupported 0 [0x83]).cfg.table.conforms = true ∧
    (start .unsupported 0 [0x83]).cfg.ldst = .unsupported ∧
    fetchWindow (start .unsupported 0 [0x83]) = some ⟨0x83, 0, 0⟩ ∧
    fetchWindow (start .unsupported 0 [0x84]) = some ⟨0x84, 0, 0⟩ ∧
    (0x83 : Byte) = (start .unsupported 0 [0x83]).cfg.table.ld ∧
    (0x84 : Byte) = (start .unsupported 0 [0x84]).cfg.table.st := by decide

theorem witness_PushStoresBelowTheStackPointer :
    State.reset.mem.wf = true ∧ (7 : Byte).toNat = (7 : Fin 8).val ∧ 7 < (8 : Byte).toNat := by decide

theorem witness_PopLoadsThenRaisesTheStackPointer :
    (6 : Byte).toNat = (6 : Fin 8).val ∧ (6 : Fin 8) ≠ 7 ∧ (7 : Byte).toNat = (7 : Fin 8).val ∧
    7 < (8 : Byte).toNat := by decide

theorem witness_CallPushesTheReturnAddress :
    (start .unsupported 253 []).mem.wf = true ∧ (7 : Byte).toNat = (7 : Fin 8).val ∧
    (start .unsupported 253 []).pc ≤ 253 ∧ 7 < (8 : Byte).toNat := by decide

theorem witness_PushThenPopRestoresAllRegisters :
    (State.reset.setReg 7 0).mem.wf = true ∧ (7 : Byte).toNat = (7 : Fin 8).val := by decide

/-- For RetResumesAfterTheCall: the state right after the CALL itself is one from which a RET meets the premises. -/
theorem witness_RetResumesAfterTheCall :
    (start .unsupported 253 []).mem.wf = true ∧ (start .unsupported 253 []).pc ≤ 253 ∧
    (0 : Byte).toNat = (0 : Fin 8).val ∧
    ∃ t u : State, exec (.call 0) (start .unsupported 253 []) = .next t ∧ u.sp = t.sp ∧
      u.memRead u.sp = t.memRead t.sp :=
  ⟨by decide, by decide, by decide, _, _, rfl, rfl, rfl⟩

theorem witness_JmpSetsPcFromTheRegister : (7 : Byte).toNat = (7 : Fin 8).val ∧ 7 < (8 : Byte).toNat := by decide

/-- Each condition is met by one FL value a CMP leaves and missed by another. -/
theorem witness_ConditionalJumpsFollowTheFlags :
    (State.reset.setFl 1).fl.getLsbD 0 = true ∧ (State.reset.setFl 2).fl.getLsbD 0 = false ∧
    (State.reset.setFl 2).fl.getLsbD 1 = true ∧ (State.reset.setFl 4).fl.getLsbD 1 = false ∧
    (State.reset.setFl 4).fl.getLsbD 2 = true ∧ (State.reset.setFl 1).fl.getLsbD 2 = false ∧
    (7 : Byte).toNat = (7 : Fin 8).val ∧ 7 < (8 : Byte).toNat := by decide

theorem witness_HltStopsTheLoop :
    Dispatches (start .unsupported 253 [0x01]) ⟨0x01, 0, 0⟩ .hlt ∧ (start .unsupported 254 [0x01]).run = .running ∧
    (start .unsupported 254 [0x01]).cfg.table.conforms = true ∧ (start .unsupported 254 [0x01]).pc = 254 ∧
    (start .unsupported 255 [0x01]).pc = 255 :=
  ⟨dispatches_hlt, by decide, by decide, by decide, by decide⟩

end Sys2Proof.Tests
end

section
/-! PROOFS. The family of 10_state.md: what a step can do at all, what each instruction does to the pieces of the state,
and which pieces of the state an instruction looks at. -/

namespace Sys2Proof.Machine

/-! ## The pc update, field by field -/

@[simp] theorem completeStep_cfg (ir : Byte) (t : State) : (completeStep ir t).cfg = t.cfg := by
  obtain ⟨p, hp⟩ := completeStep_eq_setPc ir t
  rw [hp, State.setPc_cfg]

@[simp] theorem completeStep_fl (ir : Byte) (t : State) : (completeStep ir t).fl = t.fl := by
  obtain ⟨p, hp⟩ := completeStep_eq_setPc ir t
  rw [hp, State.setPc_fl]

@[simp] theorem completeStep_mem (ir : Byte) (t : State) : (completeStep ir t).mem = t.mem := by
  obtain ⟨p, hp⟩ := completeStep_eq_setPc ir t
  rw [hp, State.setPc_mem]

@[simp] theorem completeStep_run (ir : Byte) (t : State) : (completeStep ir t).run = t.run := by
  obtain ⟨p, hp⟩ := completeStep_eq_setPc ir t
  rw [hp, State.setPc_run]

/-- R106, R107: pc is left as it is, or moved past the instruction when C = 0. -/
theorem completeStep_pc (ir : Byte) (t : State) :
    (completeStep ir t).pc = t.pc ∨
      ((decodeFields ir).pcSet = false ∧ (completeStep ir t).pc = t.pc + instrLength ir) := by
  unfold completeStep
  split
  · exact .inl rfl
  all_goals
    split
    · exact .inl rfl
    · exact .inr ⟨Bool.eq_false_iff.mpr ‹_›, rfl⟩

/-! ## What a step can do, whatever the table -/

/-- A step that dispatches is its instruction, then the pc update. -/
theorem step_next_of_dispatches {s t : State} {w : Window} {i : Instr} (hd : Dispatches s w i)
    (h : step s = .next t) : ∃ u, exec i s = .next u ∧ t = completeStep w.ir u := by
  rw [step_of_dispatches hd] at h
  cases he : exec i s with
  | next u =>
    rw [he] at h
    exact ⟨u, rfl, (Host.Outcome.next.inj h).symm⟩
  | fault r => cases r
  | refused r => rw [he] at h; cases h

/-- Everything a step can do: nothing, a fault of the fetch or of dispatch, or an instruction and its pc update. -/
theorem step_next_cases {s t : State} (h : step s = .next t) :
    t = s ∨ (∃ k, t = s.setRun (.faulted k)) ∨
      ∃ w i u, Dispatches s w i ∧ exec i s = .next u ∧ t = completeStep w.ir u := by
  by_cases hc : s.cfg.table.conforms = true
  · rcases step_next hc h with ⟨-, rfl⟩ | ⟨-, -, rfl⟩ | ⟨w, e, -, -, -, rfl⟩ | hd
    · exact .inl rfl
    · exact .inr (.inl ⟨_, rfl⟩)
    · exact .inr (.inl ⟨_, rfl⟩)
    · exact .inr (.inr hd)
  · by_cases hr : s.run = .running
    · simp [step, hr, hc] at h
    · rw [step_of_not_running hr] at h
      exact .inl (Host.Outcome.next.inj h).symm

/-! ## What an instruction does to each piece of the state -/

section Effects

variable {i : Instr} {s t : State}

/-- R21: no instruction writes the parameters. -/
theorem exec_cfg (h : exec i s = .next t) : t.cfg = s.cfg := by
  cases exec_effect h <;> rfl

/-- R33: FL is left alone by every instruction but CMP. -/
theorem exec_fl (h : exec i s = .next t) : t.fl = s.fl ∨ ∃ a b p q, i = .cmp a b ∧ t.fl = cmpFlags p q := by
  cases exec_effect h with
  | flags a b p q hi => exact .inr ⟨a, b, p, q, hi, rfl⟩
  | _ => exact .inl rfl

/-- R30: only the instructions with C = 1 write pc, with a byte or with the address after their own encoding. -/
theorem exec_pc (h : exec i s = .next t) :
    t.pc = s.pc ∨ (i.op.setsPc = true ∧ (t.pc ≤ 255 ∨ t.pc = s.pc + 2)) := by
  cases exec_effect h with
  | call r j hi => exact .inr ⟨by rw [hi]; rfl, .inl (Nat.le_of_lt_succ (s.decSp.reg j).isLt)⟩
  | ret hi => exact .inr ⟨by rw [hi]; rfl, .inl (Nat.le_of_lt_succ (s.memRead s.sp).isLt)⟩
  | jump p hp hi => exact .inr ⟨hi, hp⟩
  | _ => exact .inl rfl

/-- R50: every store keeps memory in its canonical form. -/
theorem exec_mem_wf (h : exec i s = .next t) (hm : s.mem.wf = true) : t.mem.wf = true := by
  cases exec_effect h with
  | store a b ra rb => exact State.memWrite_wf hm _ _
  | push r j => exact State.memWrite_wf (s := s.decSp) hm _ _
  | call r j => exact State.memWrite_wf (s := s.decSp) hm _ _
  | _ => exact hm

/-- R28: a register written by an instruction is one of those the rule lists for it. -/
theorem exec_reg_of_notMem (h : exec i s = .next t) {j : Fin 8} (hj : j ∉ i.writtenRegisters) :
    t.reg j = s.reg j := by
  cases exec_effect h with
  | register r v hw => exact s.reg_setReg_of_ne (ne_of_mem_of_not_mem hw hj).symm v
  | push r _ hi | call r _ hi =>
    have h7 : j ≠ 7 := by simpa [hi, Instr.writtenRegisters] using hj
    exact s.reg_setReg_of_ne h7 _
  | ret hi =>
    have h7 : j ≠ 7 := by simpa [hi, Instr.writtenRegisters] using hj
    exact State.reg_setReg_of_ne _ h7 _
  | pop r k hi hr =>
    obtain ⟨hk, h7⟩ : j ≠ k ∧ j ≠ 7 := by
      simpa [hi, Instr.writtenRegisters, regIndex?_of_val hr] using hj
    rw [State.incSp_eq, State.reg_setReg_of_ne _ h7, State.loadTop, State.reg_setReg_of_ne _ hk]
  | _ => rfl

/-- R27: the output channel is left alone by every instruction but PRN, which appends its register. -/
theorem exec_out (h : exec i s = .next t) :
    t.out = s.out ∨ ∃ r j, i = .prn r ∧ regIndex? r = some j ∧ t.out = s.out ++ [s.reg j] := by
  cases exec_effect h with
  | emit r j hi hr => exact .inr ⟨r, j, hi, regIndex?_of_val hr, rfl⟩
  | _ => exact .inl rfl

end Effects

/-! ## The values of FL -/

/-- R133: CMP sets exactly one of E, G, L. -/
theorem cmpFlags_cases (p q : Byte) : cmpFlags p q = 1 ∨ cmpFlags p q = 2 ∨ cmpFlags p q = 4 := by
  unfold cmpFlags
  split
  · exact .inl rfl
  · split
    · exact .inr (.inl rfl)
    · exact .inr (.inr rfl)

theorem legalFlags_cmpFlags (p q : Byte) : legalFlags (cmpFlags p q) = true := by
  rcases cmpFlags_cases p q with h | h | h <;> rw [h] <;> decide

/-- R35: the legal values of FL are kept by every instruction. -/
theorem exec_legalFlags {i : Instr} {s t : State} (h : exec i s = .next t) (hf : legalFlags s.fl = true) :
    legalFlags t.fl = true := by
  rcases exec_fl h with hfl | ⟨_, _, p, q, -, hfl⟩ <;> rw [hfl]
  · exact hf
  · exact legalFlags_cmpFlags p q

/-! ## The bound on pc -/

/-- No byte of a conforming table has AA = 3. -/
theorem instrLength_byteOf_le {t : OpcodeTable} (ht : t.conforms = true) (o : Op) :
    instrLength (t.byteOf o) ≤ 3 := by
  have hbound : ∀ n ∈ o.operandCounts, n ≤ 2 := by cases o <;> decide
  have := hbound _ (OpcodeTable.operandCount_mem ht o)
  simp only [instrLength]
  omega

/-- R30: an instruction is fetched from at most 253, so its pc update ends at most at 256. -/
theorem completeStep_pc_le {s u : State} {w : Window} {i : Instr} (hd : Dispatches s w i)
    (he : exec i s = .next u) : (completeStep w.ir u).pc ≤ 256 := by
  have hir : s.cfg.table.byteOf i.op = w.ir := (decode_ok hd.decoded).1
  have hpc : s.pc ≤ 253 := (fetchWindow_some hd.fetched).1
  have hlen : instrLength w.ir ≤ 3 := hir ▸ instrLength_byteOf_le hd.conforms i.op
  have hset : (decodeFields w.ir).pcSet = i.op.setsPc := hir ▸ OpcodeTable.pcSet_eq hd.conforms i.op
  rcases completeStep_pc w.ir u with hc | ⟨hC, hc⟩
  · rcases exec_pc he with hu | ⟨-, hu⟩ <;> omega
  · rcases exec_pc he with hu | ⟨hs, -⟩
    · omega
    · simp [hset, hs] at hC

/-! ## The obligations about what a step writes -/

theorem State.Inv.setRun {s : State} (h : s.Inv) (r : RunState) : (s.setRun r).Inv :=
  ⟨h.table, h.pc, h.flags, h.mem⟩

/-- Settles O28: each field of the invariant from what an instruction can do to that field. -/
theorem stepKeepsTheInvariant : Obligations.StepKeepsTheInvariant := by
  intro s t hs h
  rcases step_next_cases h with rfl | ⟨k, rfl⟩ | ⟨w, i, u, hd, he, rfl⟩
  · exact hs
  · exact hs.setRun _
  · exact
      { table := by rw [completeStep_cfg, exec_cfg he]; exact hs.table
        pc := completeStep_pc_le hd he
        flags := by rw [completeStep_fl]; exact exec_legalFlags he hs.flags
        mem := by rw [completeStep_mem]; exact exec_mem_wf he hs.mem }

/-- A CMP that does not fault leaves in FL what its comparison gives. -/
theorem execCmp_fl {a b : Byte} {s t : State} (h : exec (.cmp a b) s = .next t) (hr : ∀ k, t.run ≠ .faulted k) :
    ∃ p q, t.fl = cmpFlags p q := by
  rcases withRegs_next h with ⟨i, j, -, -, h⟩ | ⟨-, rfl⟩
  · rw [← Host.Outcome.next.inj h]
    exact ⟨_, _, rfl⟩
  · exact absurd rfl (hr _)

/-- Settles O30: no step but a CMP's writes FL, and a CMP that completes writes 1, 2 or 4. -/
theorem onlyCmpWritesFlags : Obligations.OnlyCmpWritesFlags := by
  intro s t h
  constructor
  · intro hne
    rcases step_next_cases h with rfl | ⟨k, rfl⟩ | ⟨w, i, u, hd, he, rfl⟩
    · exact absurd rfl hne
    · exact absurd rfl hne
    · rcases exec_fl he with hfl | ⟨a, b, _, _, rfl, -⟩
      · exact absurd (by rw [completeStep_fl, hfl]) hne
      · exact ⟨w, a, b, hd⟩
  · intro w a b hd hr
    obtain ⟨u, he, rfl⟩ := step_next_of_dispatches hd h
    simp only [completeStep_run] at hr
    obtain ⟨p, q, hfl⟩ := execCmp_fl he hr
    rcases cmpFlags_cases p q with hv | hv | hv
    · exact .inl (by simp [State.flagE, hfl, hv])
    · exact .inr (.inl (by simp [State.flagG, hfl, hv]))
    · exact .inr (.inr (by simp [State.flagL, hfl, hv]))

/-- Settles O32, by what an instruction can do to the registers. -/
theorem onlyListedRegistersAreWritten : Obligations.OnlyListedRegistersAreWritten :=
  fun _ _ _ h _ hj => exec_reg_of_notMem h hj

/-- Settles O35, by what an instruction can do to the output channel. -/
theorem onlyPrnEmits : Obligations.OnlyPrnEmits :=
  fun _ _ _ h hne => (exec_out h).resolve_left hne

/-- Settles O36: neither a fault, an instruction nor the pc update writes the parameters. -/
theorem stepKeepsTheParameters : Obligations.StepKeepsTheParameters := by
  intro s t h
  rcases step_next_cases h with rfl | ⟨k, rfl⟩ | ⟨w, i, u, -, he, rfl⟩
  · rfl
  · rfl
  · rw [completeStep_cfg, exec_cfg he]

/-- Settles O11, by evaluation of the reset state. -/
theorem resetClearsPcAndFlags : Obligations.ResetClearsPcAndFlags := by
  unfold Obligations.ResetClearsPcAndFlags
  decide

/-- R40, R42: the registers at reset. -/
theorem State.reg_resetWith (c : Config) (j : Fin 8) :
    (State.resetWith c).reg j = if j = 7 then 0xF4 else 0x00 := by
  fin_cases j <;> rfl

/-- Settles O12: the registers one by one, every other piece by its definition. -/
theorem resetStateHasTheStatedValues : Obligations.ResetStateHasTheStatedValues :=
  ⟨fun c => ⟨rfl, State.reg_resetWith c, fun _ => rfl, rfl, rfl, rfl, rfl⟩, rfl⟩

end Sys2Proof.Machine
end

section
/-! PROOFS. Noninterference (R27, R34): an instruction run after a change to FL and to the output channel, neither of
which it reads, answers what it answers without the change, changed in the same way. -/

namespace Sys2Proof.Machine

/-! ## Every instruction answers a next state -/

theorem withReg_total {r : Byte} {s : State} {f : Fin 8 → Result} (hf : ∀ i, ∃ t, f i = .next t) :
    ∃ t, withReg r s f = .next t := by
  rcases reg_cases r with ⟨i, hi⟩ | hr
  · rw [withReg_of_val hi]; exact hf i
  · rw [withReg_of_gt hr]; exact ⟨_, rfl⟩

theorem withRegs_total {a b : Byte} {s : State} {f : Fin 8 → Fin 8 → Result} (hf : ∀ i j, ∃ t, f i j = .next t) :
    ∃ t, withRegs a b s f = .next t :=
  withReg_total fun i => withReg_total (hf i)

theorem whenLdst_total {s : State} {f : State → Result} (hf : ∃ t, f s = .next t) : ∃ t, whenLdst s f = .next t := by
  unfold whenLdst
  split
  · exact ⟨_, rfl⟩
  · exact hf

theorem aluDivide_total (f : Byte → Byte → Byte) (a b : Byte) (s : State) : ∃ t, aluDivide f a b s = .next t := by
  refine withRegs_total fun i j => ?_
  split <;> exact ⟨_, rfl⟩

theorem jumpIf_total (c : Bool) (r : Byte) (s : State) : ∃ t, jumpIf c r s = .next t := by
  cases c
  · exact ⟨_, rfl⟩
  · exact withReg_total fun _ => ⟨_, rfl⟩

/-- R240, R243: an instruction always answers a next state. -/
theorem exec_total (i : Instr) (s : State) : ∃ t, exec i s = .next t := by
  cases i with
  | hlt | ret => exact ⟨_, rfl⟩
  | push | pop | prn | call | jmp | inc | dec | not | ldi => exact withReg_total fun _ => ⟨_, rfl⟩
  | jeq | jne | jgt | jlt | jle | jge => exact jumpIf_total _ _ _
  | ld | st =>
    apply whenLdst_total
    exact withRegs_total fun _ _ => ⟨_, rfl⟩
  | add | sub | mul | cmp | and | or | xor | shl | shr => exact withRegs_total fun _ _ => ⟨_, rfl⟩
  | div | mod => exact aluDivide_total _ _ _ _

/-! ## A change of FL and of the output channel -/

/-- The state with FL changed by `g` and the output channel by `o`. -/
def State.mapFlOut (g : Byte → Byte) (o : List Byte → List Byte) (s : State) : State :=
  { s with fl := g s.fl, out := o s.out }

theorem State.setFl_eq_mapFlOut (s : State) (f : Byte) : s.setFl f = s.mapFlOut (fun _ => f) id := rfl

section Change

variable {g : Byte → Byte} {o : List Byte → List Byte} {s : State}

theorem State.emit_mapFlOut (ho : ∀ l v, o (l ++ [v]) = o l ++ [v]) (v : Byte) :
    (s.mapFlOut g o).emit v = (s.emit v).mapFlOut g o := by
  simp only [State.emit, State.mapFlOut, ho]

/-- A register operand is checked and looked up without FL and the output channel. -/
theorem withReg_mapFlOut {r : Byte} {f f' : Fin 8 → Result} (hf : ∀ i, f' i = mapNext (State.mapFlOut g o) (f i)) :
    withReg r (s.mapFlOut g o) f' = mapNext (State.mapFlOut g o) (withReg r s f) := by
  rcases reg_cases r with ⟨i, hi⟩ | hr
  · rw [withReg_of_val hi, withReg_of_val hi, hf]
  · rw [withReg_of_gt hr, withReg_of_gt hr]; rfl

theorem withRegs_mapFlOut {a b : Byte} {f f' : Fin 8 → Fin 8 → Result}
    (hf : ∀ i j, f' i j = mapNext (State.mapFlOut g o) (f i j)) :
    withRegs a b (s.mapFlOut g o) f' = mapNext (State.mapFlOut g o) (withRegs a b s f) :=
  withReg_mapFlOut fun i => withReg_mapFlOut (hf i)

theorem aluDivide_mapFlOut (f : Byte → Byte → Byte) (a b : Byte) :
    aluDivide f a b (s.mapFlOut g o) = mapNext (State.mapFlOut g o) (aluDivide f a b s) := by
  refine withRegs_mapFlOut fun i j => ?_
  by_cases h : s.reg j = 0
  · rw [if_pos h]; exact if_pos h
  · rw [if_neg h]; exact if_neg h

theorem whenLdst_mapFlOut {f : State → Result}
    (hf : f (s.mapFlOut g o) = mapNext (State.mapFlOut g o) (f s)) :
    whenLdst (s.mapFlOut g o) f = mapNext (State.mapFlOut g o) (whenLdst s f) := by
  have hcfg : (s.mapFlOut g o).cfg = s.cfg := rfl
  unfold whenLdst
  rw [hcfg]
  cases s.cfg.ldst with
  | unsupported => rfl
  | implemented => exact hf

theorem jumpTo_mapFlOut (r : Byte) :
    jumpTo r (s.mapFlOut g o) = mapNext (State.mapFlOut g o) (jumpTo r s) :=
  withReg_mapFlOut fun _ => rfl

theorem jumpIf_mapFlOut (c : Bool) (r : Byte) :
    jumpIf c r (s.mapFlOut g o) = mapNext (State.mapFlOut g o) (jumpIf c r s) := by
  cases c
  · rfl
  · exact jumpTo_mapFlOut r

/-- R27, R34: a change of FL and of the output channel commutes with an instruction, if it leaves FL alone where the
instruction reads or writes it, and commutes with appending where the instruction emits. -/
theorem exec_mapFlOut {i : Instr} (hj : i.isConditionalJump = true → g = id) (hc : i.op = .cmp → g = id)
    (hp : i.op = .prn → ∀ l v, o (l ++ [v]) = o l ++ [v]) :
    exec i (s.mapFlOut g o) = mapNext (State.mapFlOut g o) (exec i s) := by
  cases i with
  | hlt | ret => rfl
  | push | pop | call | jmp | inc | dec | not | ldi => exact withReg_mapFlOut fun _ => rfl
  | prn r => exact withReg_mapFlOut fun _ => congrArg Host.Outcome.next (State.emit_mapFlOut (hp rfl) _)
  | jeq | jne | jgt | jlt | jle | jge => obtain rfl := hj rfl; exact jumpIf_mapFlOut _ _
  | ld a b =>
    unfold exec execLd
    exact whenLdst_mapFlOut (withRegs_mapFlOut fun _ _ => rfl)
  | st a b =>
    unfold exec execSt
    exact whenLdst_mapFlOut (withRegs_mapFlOut fun _ _ => rfl)
  | add | sub | mul | and | or | xor | shl | shr => exact withRegs_mapFlOut fun _ _ => rfl
  | div | mod => exact aluDivide_mapFlOut _ _ _
  | cmp => obtain rfl := hc rfl; exact withRegs_mapFlOut fun _ _ => rfl

/-- The pc update reads the run state, pc and the opcode byte. -/
theorem completeStep_mapFlOut (ir : Byte) (t : State) :
    completeStep ir (t.mapFlOut g o) = (completeStep ir t).mapFlOut g o := by
  have hrun : (t.mapFlOut g o).run = t.run := rfl
  unfold completeStep
  rw [hrun]
  split
  · rfl
  all_goals split <;> rfl

theorem completeResult_mapFlOut (ir : Byte) (x : Result) :
    completeResult ir (mapNext (State.mapFlOut g o) x) = mapNext (State.mapFlOut g o) (completeResult ir x) := by
  cases x with
  | next t => exact congrArg Host.Outcome.next (completeStep_mapFlOut ir t)
  | fault r => rfl
  | refused r => rfl

/-- R27: fetch and dispatch read memory, pc and the table, and the rest of a step only appends to the output channel. -/
theorem stepRunning_mapFlOut_id (ho : ∀ l v, o (l ++ [v]) = o l ++ [v]) :
    stepRunning (s.mapFlOut id o) = mapNext (State.mapFlOut id o) (stepRunning s) := by
  have hfetch : fetchWindow (s.mapFlOut id o) = fetchWindow s := rfl
  have hcfg : (s.mapFlOut id o).cfg = s.cfg := rfl
  unfold stepRunning
  rw [hfetch, hcfg]
  cases fetchWindow s with
  | none => rfl
  | some w =>
    cases hd : decode s.cfg.table w with
    | error e => simp only [hd]; rfl
    | ok i =>
      simp only [hd]
      rw [exec_mapFlOut (fun _ => rfl) (fun _ => rfl) (fun _ => ho), completeResult_mapFlOut]

theorem step_mapFlOut_id (ho : ∀ l v, o (l ++ [v]) = o l ++ [v]) :
    step (s.mapFlOut id o) = mapNext (State.mapFlOut id o) (step s) := by
  have hrun : (s.mapFlOut id o).run = s.run := rfl
  have hcfg : (s.mapFlOut id o).cfg = s.cfg := rfl
  unfold step
  rw [hrun, hcfg]
  cases s.run with
  | running =>
    by_cases hc : s.cfg.table.conforms = true
    · simp only [hc, if_true]
      exact stepRunning_mapFlOut_id ho
    · simp only [hc]
      rfl
  | halted | faulted => rfl

end Change

/-! ## The obligations about what is read -/

theorem eq_cmp_of_op {i : Instr} (h : i.op = .cmp) : ∃ a b, i = .cmp a b := by
  cases i with
  | cmp a b => exact ⟨a, b, rfl⟩
  | _ => cases h

/-- CMP answers the same whatever FL was: it writes FL in both runs, or faults in both. -/
theorem execCmp_setFl (a b : Byte) (s : State) (f : Byte) :
    ∃ t u, exec (.cmp a b) s = .next t ∧ exec (.cmp a b) (s.setFl f) = .next u ∧ u = t.setFl u.fl ∧
      (u.fl = t.fl ∨ (t.fl = s.fl ∧ u.fl = f)) := by
  by_cases hgt : 7 < a.toNat ∨ 7 < b.toNat
  · exact ⟨_, _, withRegs_of_gt hgt _ _, withRegs_of_gt hgt _ _, rfl, .inr ⟨rfl, rfl⟩⟩
  · obtain ⟨ha, hb⟩ := not_or.mp hgt
    obtain ⟨i, hi⟩ := (reg_cases a).resolve_right ha
    obtain ⟨j, hj⟩ := (reg_cases b).resolve_right hb
    exact ⟨_, _, withRegs_of_val hi hj _ _, withRegs_of_val hi hj _ _, rfl, .inl rfl⟩

/-- Settles O31: CMP overwrites FL in both runs, and every other instruction neither reads nor writes it. -/
theorem onlyConditionalJumpsReadFlags : Obligations.OnlyConditionalJumpsReadFlags := by
  intro i s f hj
  by_cases hi : ∃ a b, i = .cmp a b
  · obtain ⟨a, b, rfl⟩ := hi
    exact execCmp_setFl a b s f
  · obtain ⟨t, ht⟩ := exec_total i s
    have hu : exec i (s.setFl f) = mapNext (·.setFl f) (exec i s) :=
      exec_mapFlOut (g := fun _ => f) (o := id) (by simp [hj]) (fun hop => absurd (eq_cmp_of_op hop) hi)
        fun _ _ _ => rfl
    have hfl : t.fl = s.fl := (exec_fl ht).resolve_right fun ⟨a, b, _, _, h, _⟩ => hi ⟨a, b, h⟩
    rw [ht] at hu
    exact ⟨t, t.setFl f, ht, hu, rfl, .inr ⟨hfl, rfl⟩⟩

/-- Settles O34: fetch and dispatch do not read the output channel, nor does any instruction, and PRN only appends. -/
theorem stepIgnoresEarlierOutput : Obligations.StepIgnoresEarlierOutput :=
  fun _ p => step_mapFlOut_id (o := (p ++ ·)) fun l v => (List.append_assoc p l [v]).symm

end Sys2Proof.Machine
end

section
/-! PROOFS. The family of 20_memory.md: what a write does to a later read and to the next fetch, and which instructions
write memory at which address. -/

namespace Sys2Proof.Machine

/-! ## A read after a write -/

theorem State.memRead_memWrite_same {s : State} (h : s.mem.wf = true) (a v : Byte) :
    (s.memWrite a v).memRead a = v := by
  rw [State.memRead_memWrite h, if_pos rfl]

theorem State.memRead_memWrite_of_ne {s : State} (h : s.mem.wf = true) {a x : Byte} (hx : x ≠ a) (v : Byte) :
    (s.memWrite a v).memRead x = s.memRead x := by
  rw [State.memRead_memWrite h, if_neg hx.symm]

/-- R54: a byte that a write changes is the byte at its address. -/
theorem State.eq_of_memRead_memWrite_ne {s : State} (h : s.mem.wf = true) {a v x : Byte}
    (hx : (s.memWrite a v).memRead x ≠ s.memRead x) : x = a :=
  not_not.mp fun hne => hx (State.memRead_memWrite_of_ne h hne v)

/-- Settles O15, by the laws of a read after a write and of the canonical form. -/
theorem readGivesTheLatestWrite : Obligations.ReadGivesTheLatestWrite :=
  fun _ a v _ h =>
    ⟨State.memRead_memWrite_same h a v, fun hx => State.memRead_memWrite_of_ne h hx v, State.memWrite_wf h a v⟩

/-! ## A fetch after a write -/

/-- R61 at an address that is a number, as the fetch's addresses are (R57). -/
theorem State.mem_read_memWrite {s : State} (h : s.mem.wf = true) (a v : Byte) (n : Nat) :
    (s.memWrite a v).mem.read n = if a.toNat = n then v else s.mem.read n :=
  Memory.read_write_of_sorted (Memory.sorted_of_wf h) a.toNat v n

/-- Settles O16: both fetches read the three cells from the same pc, and each cell is read after the write. -/
theorem fetchSeesWrittenBytes : Obligations.FetchSeesWrittenBytes := by
  intro s a v h hpc
  have hpc' : (s.memWrite a v).pc ≤ 253 := hpc
  refine ⟨_, fetchWindow_eq_some hpc, ?_⟩
  rw [fetchWindow_eq_some hpc']
  simp only [State.memWrite_pc, State.mem_read_memWrite h]

/-! ## Which instructions write memory -/

/-- Settles O33: among the effects of an instruction, only a store, a push and a call write memory, each one byte. -/
theorem onlyStoresWriteMemory : Obligations.OnlyStoresWriteMemory := by
  intro i s t hm h x hx
  have hm' : s.decSp.mem.wf = true := hm
  cases exec_effect h with
  | store a b ra rb hi hl ha =>
    exact .inr ⟨a, b, ra, hi, regIndex?_of_val ha, State.eq_of_memRead_memWrite_ne hm hx, hl⟩
  | push r j hi => exact .inl ⟨⟨r, .inl hi⟩, State.eq_of_memRead_memWrite_ne hm' hx⟩
  | call r j hi => exact .inl ⟨⟨r, .inr hi⟩, State.eq_of_memRead_memWrite_ne hm' hx⟩
  | _ => exact absurd rfl hx

end Sys2Proof.Machine
end

section
/-! PROOFS. The family of 30_encoding.md: the bits of the opcode byte, the tables that conform, dispatch on the whole
byte, and the two directions of the round trip between instructions and bytes. -/

namespace Sys2Proof

/-! ## The bits of the opcode byte -/

/-- R71: the fields put back at their places give the byte. -/
theorem toNat_eq_decodeFields (b : Byte) :
    b.toNat = 64 * (decodeFields b).operandCount + 32 * (decodeFields b).alu.toNat
      + 16 * (decodeFields b).pcSet.toNat + (decodeFields b).opcodeId.toNat := by
  have := b.isLt
  simp only [decodeFields, BitVec.extractLsb'_toNat, BitVec.getLsbD, Nat.toNat_testBit, Nat.shiftRight_eq_div_pow]
  omega

/-! ## Operand counts -/

/-- R79 point 1: a table may give an instruction as many operand bytes as it uses, or one more. -/
theorem Op.headD_le_of_mem_operandCounts (o : Op) :
    ∀ n ∈ o.operandCounts, n ≤ 2 ∧ n ≤ o.operandCounts.headD 0 + 1 := by
  cases o <;> decide

theorem Instr.length_operandBytes (i : Instr) : i.operandBytes.length = i.op.operandCounts.headD 0 := by
  cases i <;> rfl

theorem Instr.operandBytes_ofOp (o : Op) (x y : Byte) :
    (Instr.ofOp o x y).operandBytes = [x, y].take (o.operandCounts.headD 0) := by
  cases o <;> rfl

theorem OpcodeTable.operandCount_le_two {t : OpcodeTable} (ht : t.conforms = true) (o : Op) :
    (decodeFields (t.byteOf o)).operandCount ≤ 2 :=
  (o.headD_le_of_mem_operandCounts _ (OpcodeTable.operandCount_mem ht o)).1

/-- R79 point 1: only INC, DEC and NOT may be given more operand bytes than they use. -/
theorem OpcodeTable.operandCount_eq_headD {t : OpcodeTable} (ht : t.conforms = true)
    (hu : ∀ o ∈ [Op.inc, .dec, .not], (decodeFields (t.byteOf o)).operandCount = 1) (o : Op) :
    (decodeFields (t.byteOf o)).operandCount = o.operandCounts.headD 0 := by
  have hmem := OpcodeTable.operandCount_mem ht o
  cases o with
  | inc | dec | not => exact hu _ (by decide)
  | _ => exact List.mem_singleton.mp hmem

theorem length_encode {t : OpcodeTable} (ht : t.conforms = true) (i : Instr) :
    (encode t i).length = instrLength (t.byteOf i.op) := by
  have hle : (decodeFields (t.byteOf i.op)).operandCount ≤ i.operandBytes.length + 1 := by
    rw [i.length_operandBytes]
    exact (i.op.headD_le_of_mem_operandCounts _ (OpcodeTable.operandCount_mem ht i.op)).2
  simp only [encode, instrLength, List.length_cons, List.length_take, List.length_append, List.length_nil]
  omega

/-! ## Conforming tables -/

/-- R79, in the terms of the model's own tables of operand counts, B and C. -/
theorem OpcodeTable.conforms_iff (t : OpcodeTable) : t.conforms = true ↔
    (∀ o, (decodeFields (t.byteOf o)).operandCount ∈ o.operandCounts) ∧
    (∀ o, (decodeFields (t.byteOf o)).alu = o.isAlu) ∧
    (∀ o, (decodeFields (t.byteOf o)).pcSet = o.setsPc) ∧
    (∀ o p, t.byteOf o = t.byteOf p → o = p) ∧ t.byteOf .xor = 0b10101011 := by
  constructor
  · intro ht
    refine ⟨operandCount_mem ht, alu_eq ht, pcSet_eq ht, fun _ _ => byteOf_injective ht, ?_⟩
    simp only [conforms, Bool.and_eq_true, beq_iff_eq] at ht
    exact ht.2
  · rintro ⟨hcount, halu, hpc, hinj, hxor⟩
    have hrow : ∀ o, t.rowConforms o = true := fun o => by
      simp [rowConforms, hcount o, halu o, hpc o]
    have hnodup : (Op.all.map t.byteOf).Nodup := List.Nodup.map hinj (by decide)
    have hxor' : t.xor = 0b10101011 := hxor
    simp [conforms, hrow, hnodup, hxor']

theorem Op.mem_noOperand_iff (o : Op) : o ∈ [Op.hlt, .ret] ↔ o.operandCounts = [0] := by
  cases o <;> decide

theorem Op.mem_oneOperand_iff (o : Op) :
    o ∈ [Op.prn, .push, .pop, .call, .jmp, .jeq, .jne, .jgt, .jlt, .jle, .jge] ↔ o.operandCounts = [1] := by
  cases o <;> decide

theorem Op.mem_twoOperands_iff (o : Op) :
    o ∈ [Op.ldi, .ld, .st, .add, .sub, .mul, .div, .mod, .and, .or, .xor, .shl, .shr, .cmp] ↔
      o.operandCounts = [2] := by
  cases o <;> decide

theorem Op.mem_unary_iff (o : Op) : o ∈ [Op.inc, .dec, .not] ↔ o.operandCounts = [1, 2] := by
  cases o <;> decide

theorem Op.operandCounts_cases (o : Op) :
    o.operandCounts = [0] ∨ o.operandCounts = [1] ∨ o.operandCounts = [2] ∨ o.operandCounts = [1, 2] := by
  cases o <;> decide

theorem Op.mem_alu_iff (o : Op) :
    o ∈ [Op.add, .sub, .mul, .div, .mod, .inc, .dec, .and, .or, .xor, .not, .shl, .shr, .cmp] ↔ o.isAlu = true := by
  cases o <;> decide

theorem Op.mem_setsPc_iff (o : Op) :
    o ∈ [Op.call, .ret, .jmp, .jeq, .jne, .jgt, .jlt, .jle, .jge] ↔ o.setsPc = true := by
  cases o <;> decide

/-- R79 point 1, by the four sets of counts an instruction can have. -/
theorem Op.forall_mem_operandCounts_iff (c : Op → Nat) : (∀ o, c o ∈ o.operandCounts) ↔
    (∀ o, o.operandCounts = [0] → c o = 0) ∧ (∀ o, o.operandCounts = [1] → c o = 1) ∧
    (∀ o, o.operandCounts = [2] → c o = 2) ∧ (∀ o, o.operandCounts = [1, 2] → c o = 1 ∨ c o = 2) := by
  constructor
  · intro h
    refine ⟨fun o ho => ?_, fun o ho => ?_, fun o ho => ?_, fun o ho => ?_⟩ <;> simpa [ho] using h o
  · rintro ⟨h0, h1, h2, hu⟩ o
    rcases o.operandCounts_cases with ho | ho | ho | ho
    · simp [ho, h0 o ho]
    · simp [ho, h1 o ho]
    · simp [ho, h2 o ho]
    · simpa [ho] using hu o ho

/-- R79 points 2 and 3 keep the two classes apart: no row has both B and C. -/
theorem Op.setsPc_of_isAlu {o : Op} (h : o.isAlu = true) : o.setsPc = false := by
  revert h
  cases o <;> decide

/-! ## Dispatch -/

/-- R81: a window that starts with an instruction's byte decodes to that instruction. -/
theorem decode_of_ir_eq {t : OpcodeTable} (ht : t.conforms = true) {w : Window} {o : Op} (h : w.ir = t.byteOf o) :
    decode t w = .ok (Instr.ofOp o w.opA w.opB) := by
  simp only [decode, h, OpcodeTable.lookup_byteOf ht]

/-- R82: a window whose first byte is in no row is rejected, by its bit 5. -/
theorem decode_of_forall_ne {t : OpcodeTable} {w : Window} (h : ∀ o, t.byteOf o ≠ w.ir) :
    decode t w = .error (if (decodeFields w.ir).alu then .unsupportedAluOp else .unsupportedOpcode) := by
  cases hd : decode t w with
  | ok i => exact absurd (decode_ok hd).1 (h i.op)
  | error e => rw [(decode_error hd).2]

/-- R82: bytes with AA = 3, or with both B and C, are in no conforming table. -/
theorem OpcodeTable.byteOf_ne_of_illegal {t : OpcodeTable} (ht : t.conforms = true) {b : Byte}
    (hb : (decodeFields b).operandCount = 3 ∨ ((decodeFields b).alu = true ∧ (decodeFields b).pcSet = true)) (o : Op) :
    t.byteOf o ≠ b := by
  rintro rfl
  rcases hb with h3 | ⟨hB, hC⟩
  · have := OpcodeTable.operandCount_le_two ht o
    omega
  · rw [OpcodeTable.alu_eq ht] at hB
    rw [OpcodeTable.pcSet_eq ht, Op.setsPc_of_isAlu hB] at hC
    cases hC

/-! ## How many bytes a table leaves out -/

theorem OpcodeTable.lookup_eq_some_iff {t : OpcodeTable} (ht : t.conforms = true) {b : Byte} {o : Op} :
    t.lookup b = some o ↔ t.byteOf o = b :=
  ⟨OpcodeTable.lookup_some, fun h => h ▸ OpcodeTable.lookup_byteOf ht o⟩

/-- The bytes that select an instruction outside `p` are, in some order, those the table gives these instructions. -/
theorem OpcodeTable.filter_lookup_perm {t : OpcodeTable} (ht : t.conforms = true) (p : Op → Bool) :
    ((List.range 256).filter fun n => !(t.lookup (BitVec.ofNat 8 n)).all p).Perm
      ((Op.all.filter fun o => !p o).map fun o => (t.byteOf o).toNat) := by
  have hinj : Function.Injective fun o => (t.byteOf o).toNat := fun _ _ h =>
    OpcodeTable.byteOf_injective ht (BitVec.eq_of_toNat_eq h)
  have hall : Op.all.Nodup := by decide
  rw [List.perm_ext_iff_of_nodup (List.nodup_range.filter _) ((hall.filter _).map hinj)]
  intro n
  simp only [List.mem_filter, List.mem_range, List.mem_map, Op.mem_all, true_and, Bool.not_eq_true',
    Option.all_eq_false, OpcodeTable.lookup_eq_some_iff ht]
  constructor
  · rintro ⟨hn, o, hb, ho⟩
    exact ⟨o, ho, by rw [hb, BitVec.toNat_ofNat, Nat.mod_eq_of_lt hn]⟩
  · rintro ⟨o, ho, rfl⟩
    exact ⟨(t.byteOf o).isLt, o, by rw [BitVec.ofNat_toNat, BitVec.setWidth_eq], ho⟩

theorem isNone_eq_all_false {α : Type} (x : Option α) : x.isNone = x.all fun _ => false := by
  cases x <;> rfl

/-- How many bytes select no instruction or one in `p`: all but one for each instruction outside `p`. -/
theorem OpcodeTable.length_filter_lookup_all {t : OpcodeTable} (ht : t.conforms = true) (p : Op → Bool) :
    ((List.range 256).filter fun n => (t.lookup (BitVec.ofNat 8 n)).all p).length =
      256 - (Op.all.filter fun o => !p o).length := by
  have hperm := (OpcodeTable.filter_lookup_perm ht p).length_eq
  have hsplit := List.length_eq_length_filter_add (l := List.range 256)
    fun n => (t.lookup (BitVec.ofNat 8 n)).all p
  rw [List.length_range] at hsplit
  rw [List.length_map] at hperm
  omega

/-! ## The round trip -/

/-- The window of any encoding rebuilds its instruction. -/
theorem Laws.WindowRebuild.statement : ∀ i : Instr, Laws.WindowRebuild.Statement i
  | .hlt => hlt | .ret => ret | .push r => push r | .pop r => pop r | .prn r => prn r | .call r => call r
  | .jmp r => jmp r | .jeq r => jeq r | .jne r => jne r | .jgt r => jgt r | .jlt r => jlt r | .jle r => jle r
  | .jge r => jge r | .inc r => inc r | .dec r => dec r | .not r => not r | .ldi r imm => ldi r imm
  | .ld a b => ld a b | .st a b => st a b | .add a b => add a b | .sub a b => sub a b | .mul a b => mul a b
  | .div a b => div a b | .mod a b => mod a b | .cmp a b => cmp a b | .and a b => and a b | .or a b => or a b
  | .xor a b => xor a b | .shl a b => shl a b | .shr a b => shr a b

/-- Settles O8: the first byte selects the instruction's name, and the two after it rebuild its operands. -/
theorem decodeOfEncodeIsTheInstruction : Obligations.DecodeOfEncodeIsTheInstruction := by
  intro t i tail ht
  have hir : (windowOf (encode t i ++ tail)).ir = t.byteOf i.op := rfl
  rw [decode_of_ir_eq ht hir, Laws.WindowRebuild.statement i t ht tail]

/-- Settles O9: the operand bytes of a decoded instruction are the first of the two it was decoded from, and the table
gives it no operand byte more. -/
theorem encodeOfDecodeIsTheBytes : Obligations.EncodeOfDecodeIsTheBytes := by
  intro t w i ht hu hd
  obtain ⟨hir, hi⟩ := decode_ok hd
  have hcount := OpcodeTable.operandCount_eq_headD ht hu i.op
  have hbytes : i.operandBytes = [w.opA, w.opB].take (decodeFields w.ir).operandCount := by
    rw [hi, Instr.operandBytes_ofOp, ← hir, hcount]
  have hle : (decodeFields w.ir).operandCount ≤ i.operandBytes.length := by
    rw [i.length_operandBytes, ← hcount, hir]
  rw [encode, hir, List.take_append_of_le_length hle, hbytes, List.take_take, min_self, instrLength, Nat.add_comm,
    List.take_succ_cons]

/-! ## The obligations about tables and bytes -/

/-- Settles O2, from the operand counts a conforming table can have. -/
theorem encodingLengthIsOnePlusOperandCount : Obligations.EncodingLengthIsOnePlusOperandCount :=
  fun _ i ht => ⟨length_encode ht i, rfl, Nat.le_add_right 1 _, Machine.instrLength_byteOf_le ht i.op⟩

/-- Settles O4: the lists of instructions are the model's own classes, point by point. -/
theorem conformingTablesMeetTheConstraints : Obligations.ConformingTablesMeetTheConstraints := by
  intro t
  simp only [Op.mem_noOperand_iff, Op.mem_oneOperand_iff, Op.mem_twoOperands_iff, Op.mem_unary_iff, Op.mem_alu_iff,
    Op.mem_setsPc_iff, ← Bool.eq_iff_iff]
  rw [OpcodeTable.conforms_iff, Op.forall_mem_operandCounts_iff]
  simp only [and_assoc]

/-- Settles O1: the fields are quotients and remainders of the byte's value. -/
theorem opcodeByteFieldsAreItsBits : Obligations.OpcodeByteFieldsAreItsBits :=
  ⟨toNat_eq_decodeFields, fun _ _ ht h3 => ⟨_, decode_of_forall_ne (OpcodeTable.byteOf_ne_of_illegal ht (.inl h3))⟩⟩

/-- Settles O3: each word is decoded. -/
theorem specWordsDecode : Obligations.SpecWordsDecode := by
  unfold Obligations.SpecWordsDecode
  decide

/-- Settles O5: the constraints are checked row by row. -/
theorem defaultTableConforms : Obligations.DefaultTableConforms := by
  unfold Obligations.DefaultTableConforms
  decide

/-- Settles O7: dispatch finds the row of the byte, and five of the default table's rows share two ids. -/
theorem dispatchIsKeyedOnTheWholeByte : Obligations.DispatchIsKeyedOnTheWholeByte := by
  refine ⟨fun t w ht o => ⟨?_, fun h => ⟨_, decode_of_ir_eq ht h, Instr.op_ofOp o _ _⟩⟩, by decide⟩
  rintro ⟨i, hd, rfl⟩
  exact (decode_ok hd).1.symm

end Sys2Proof

namespace Sys2Proof.Machine

/-! ## Faults at dispatch -/

/-- R82, R103: a running step whose window is rejected takes the fault of the rejection. -/
theorem step_of_decode_error {s : State} {w : Window} {e : DecodeReject} (hr : s.run = .running)
    (hc : s.cfg.table.conforms = true) (hw : fetchWindow s = some w) (hd : decode s.cfg.table w = .error e) :
    step s = takeFault (rejectKind e) s := by
  simp only [step, hr, hc, if_true, stepRunning, hw, hd]

/-- R164: LD and ST check LDST_SUPPORT before anything else. -/
theorem whenLdst_of_unsupported {s : State} (h : s.cfg.ldst = .unsupported) (f : State → Result) :
    whenLdst s f = takeFault .unsupportedOpcode s := by
  rw [whenLdst, h]

theorem execLd_of_unsupported {s : State} (h : s.cfg.ldst = .unsupported) (a b : Byte) :
    exec (.ld a b) s = takeFault .unsupportedOpcode s := by
  rw [exec, execLd, whenLdst_of_unsupported h]

theorem execSt_of_unsupported {s : State} (h : s.cfg.ldst = .unsupported) (a b : Byte) :
    exec (.st a b) s = takeFault .unsupportedOpcode s := by
  rw [exec, execSt, whenLdst_of_unsupported h]

theorem raisesFault_of_exec_eq {k : FaultKind} {i : Instr} {s : State} (h : exec i s = takeFault k s) :
    RaisesFault k i s :=
  ⟨_, h, faultedFrom_setRun k s⟩

theorem stepFaults_of_step_eq {k : FaultKind} {s : State} (h : step s = takeFault k s) : StepFaults k s :=
  ⟨_, h, faultedFrom_setRun k s⟩

theorem stepFaults_of_forall_byteOf_ne {s : State} {w : Window} (hr : s.run = .running)
    (hc : s.cfg.table.conforms = true) (hw : fetchWindow s = some w) (hne : ∀ o, s.cfg.table.byteOf o ≠ w.ir) :
    StepFaults (if w.ir.getLsbD 5 then .unsupportedAluOp else .unsupportedOpcode) s := by
  have hstep := step_of_decode_error hr hc hw (decode_of_forall_ne hne)
  rw [apply_ite rejectKind] at hstep
  exact stepFaults_of_step_eq hstep

/-! ## The obligations about the step -/

/-- Settles O6: the table is checked before the fetch. -/
theorem nonConformingTableIsRefused : Obligations.NonConformingTableIsRefused := by
  intro s hr hc
  simp only [step, hr, hc, Bool.false_eq_true, if_false]

/-- Settles O10: a byte in no row is rejected at dispatch, no illegal byte can be in a row, and the default table's
legal bytes are those of its 30 rows. -/
theorem illegalBytesEndTheRun : Obligations.IllegalBytesEndTheRun := by
  refine ⟨fun s w => stepFaults_of_forall_byteOf_ne, fun t b ht hb => OpcodeTable.byteOf_ne_of_illegal ht hb,
    fun o => by cases o <;> decide, ?_, ?_, fun s a b hl => ?_⟩
  · simp only [isNone_eq_all_false]
    exact OpcodeTable.length_filter_lookup_all defaultTableConforms _
  · exact OpcodeTable.length_filter_lookup_all defaultTableConforms _
  · exact ⟨raisesFault_of_exec_eq (execLd_of_unsupported hl a b), raisesFault_of_exec_eq (execSt_of_unsupported hl a b)⟩

end Sys2Proof.Machine
end

section
/-! PROOFS. The family of 40_loop.md: the fetch, the step as exec and pc update, and the runs of a state that steps to
itself. -/

namespace Sys2Proof.Machine

/-! ## The fetch -/

/-- R61 at a fetch address: reading it as a byte reads the same cell. -/
theorem State.memRead_ofNat (s : State) {n : Nat} (h : n ≤ 255) : s.memRead (BitVec.ofNat 8 n) = s.mem.read n := by
  rw [State.memRead, BitVec.toNat_ofNat, Nat.mod_eq_of_lt (by omega)]

/-- Settles O17: the three addresses of the fetch are bytes. -/
theorem fetchReadsThreeConsecutiveBytes : Obligations.FetchReadsThreeConsecutiveBytes := by
  intro s h
  rw [fetchWindow_eq_some h, s.memRead_ofNat (by omega), s.memRead_ofNat (by omega), s.memRead_ofNat (by omega)]

/-- R101: a running step at pc above 253 takes the fault of the fetch. -/
theorem step_of_pc_gt {s : State} (hr : s.run = .running) (hc : s.cfg.table.conforms = true) (hp : 253 < s.pc) :
    step s = takeFault .addressOutOfRange s := by
  simp only [step, hr, hc, if_true, stepRunning, fetchWindow_eq_none hp]

/-! ## The run state after an instruction -/

/-- R26: an instruction keeps the run state, halts, or raises a fault, and neither of the kinds that only the fetch
and dispatch raise. -/
theorem exec_run {i : Instr} {s t : State} (h : exec i s = .next t) :
    t.run = s.run ∨ (i = .hlt ∧ t.run = .halted) ∨
      ∃ k, (k ≠ .addressOutOfRange ∧ k ≠ .unsupportedAluOp) ∧ t = s.setRun (.faulted k) := by
  cases exec_effect h with
  | fault k hk => exact .inr (.inr ⟨k, hk, rfl⟩)
  | halt hi => exact .inr (.inl ⟨hi, rfl⟩)
  | _ => exact .inl rfl

theorem exec_run_ne_addressOutOfRange {i : Instr} {s t : State} (hr : s.run = .running) (h : exec i s = .next t) :
    t.run ≠ .faulted .addressOutOfRange := by
  rcases exec_run h with ht | ⟨-, ht⟩ | ⟨k, ⟨hk, -⟩, rfl⟩
  · rw [ht, hr]; nofun
  · rw [ht]; nofun
  · exact fun he => hk (RunState.faulted.inj he)

theorem rejectKind_ne_addressOutOfRange (e : DecodeReject) : rejectKind e ≠ .addressOutOfRange := by
  cases e <;> decide

/-! ## Every step answers -/

/-- R103, R108: a step that dispatches is its instruction, which always answers, then the pc update. -/
theorem exists_exec_step_of_dispatches {s : State} {w : Window} {i : Instr} (hd : Dispatches s w i) :
    ∃ t, exec i s = .next t ∧ step s = .next (completeStep w.ir t) := by
  obtain ⟨t, ht⟩ := exec_total i s
  exact ⟨t, ht, by rw [step_of_dispatches hd, ht, completeResult]⟩

/-- R100: with a conforming table, the fetch and dispatch fault into a next state and every instruction answers one. -/
theorem step_total {s : State} (hc : s.cfg.table.conforms = true) : ∃ t, step s = .next t := by
  by_cases hr : s.run = .running
  · by_cases hp : 253 < s.pc
    · exact ⟨_, step_of_pc_gt hr hc hp⟩
    · have hw := fetchWindow_eq_some (Nat.le_of_not_lt hp)
      cases hd : decode s.cfg.table ⟨s.mem.read s.pc, s.mem.read (s.pc + 1), s.mem.read (s.pc + 2)⟩ with
      | error e => exact ⟨_, step_of_decode_error hr hc hw hd⟩
      | ok i =>
        obtain ⟨u, -, hs⟩ := exists_exec_step_of_dispatches ⟨hr, hc, hw, hd⟩
        exact ⟨_, hs⟩
  · exact ⟨s, step_of_not_running hr⟩

/-- Settles O18: above 253 the fetch finds no window; at most 253 neither dispatch nor an instruction raises this
fault. -/
theorem fetchAboveTheTopFaults : Obligations.FetchAboveTheTopFaults := by
  intro s hr hc
  refine ⟨fun hp => stepFaults_of_step_eq (step_of_pc_gt hr hc hp), fun hp => ?_⟩
  obtain ⟨t, ht⟩ := step_total hc
  refine ⟨t, ht, ?_⟩
  rcases step_next hc ht with ⟨hn, -⟩ | ⟨-, hgt, -⟩ | ⟨w, e, -, -, -, rfl⟩ | ⟨w, i, u, hd, he, rfl⟩
  · exact absurd hr hn
  · omega
  · exact fun he => rejectKind_ne_addressOutOfRange e (RunState.faulted.inj he)
  · rw [completeStep_run]
    exact exec_run_ne_addressOutOfRange hr he

/-- Settles O21: a step answers in every state, and a terminal state steps to itself. -/
theorem everyStepHasANextState : Obligations.EveryStepHasANextState :=
  fun _ hc => ⟨step_total hc, fun hr => core_run_of_step_self (step_of_not_running hr)⟩

/-! ## The pc update of a dispatching step -/

/-- R79, R110: the C bit of the dispatched byte tells whether the instruction sets pc. -/
theorem Dispatches.pcSet_eq {s : State} {w : Window} {i : Instr} (hd : Dispatches s w i) :
    (decodeFields w.ir).pcSet = i.op.setsPc := by
  rw [← (decode_ok hd.decoded).1]
  exact OpcodeTable.pcSet_eq hd.conforms i.op

theorem completeStep_of_pcSet {ir : Byte} (h : (decodeFields ir).pcSet = true) (t : State) : completeStep ir t = t := by
  unfold completeStep
  split
  · rfl
  all_goals exact if_pos h

theorem completeStep_of_pcSet_false {ir : Byte} {t : State} (hr : ∀ k, t.run ≠ .faulted k)
    (h : (decodeFields ir).pcSet = false) :
    completeStep ir t = t.setPc (t.pc + 1 + (decodeFields ir).operandCount) := by
  rw [completeStep_of_not_faulted hr, h, if_neg Bool.false_ne_true, instrLength, Nat.add_assoc]

/-- R110: an instruction that does not set pc leaves it to the loop. -/
theorem exec_pc_of_setsPc_false {i : Instr} {s t : State} (h : exec i s = .next t) (hi : i.op.setsPc = false) :
    t.pc = s.pc :=
  (exec_pc h).resolve_right fun ⟨hs, _⟩ => Bool.false_ne_true (hi ▸ hs)

/-- Settles O19, by what the pc update is after a fault, for C = 1 and for C = 0. -/
theorem stepRunsTheDecodedInstruction : Obligations.StepRunsTheDecodedInstruction := by
  intro s w i hr hc hw hi
  obtain ⟨t, ht, hs⟩ := exists_exec_step_of_dispatches ⟨hr, hc, hw, hi⟩
  refine ⟨t, ht, ?_, fun hk hC => ?_⟩
  · rintro (⟨k, hk⟩ | hC)
    · rw [hs, completeStep_of_faulted hk]
    · rw [hs, completeStep_of_pcSet hC]
  · rw [hs, completeStep_of_pcSet_false hk hC, State.setPc]

/-- Settles O20: with C = 0 the instruction itself leaves pc alone, with C = 1 the pc update does. -/
theorem pcAdvancesByLengthUnlessSet : Obligations.PcAdvancesByLengthUnlessSet := by
  intro s t w i hd hs hr
  obtain ⟨u, hu, rfl⟩ := step_next_of_dispatches hd hs
  simp only [completeStep_run] at hr
  refine ⟨fun hC => ?_, fun hC => ⟨u, hu, by rw [completeStep_of_pcSet hC]⟩⟩
  have hpc : u.pc = s.pc := exec_pc_of_setsPc_false hu (hd.pcSet_eq ▸ hC)
  rw [completeStep_of_pcSet_false hr hC, State.setPc_pc, hpc]

/-! ## A jump to itself -/

/-- R201: JMP sets pc from the register it names. -/
theorem execJmp_of_val {r : Byte} {j : Fin 8} (h : r.toNat = j.val) (s : State) :
    exec (.jmp r) s = .next (s.setPc (s.reg j).toNat) :=
  withReg_of_val h s _

/-- R112: the state does not change, since JMP writes pc alone, with the value it has, and its byte has C = 1. -/
theorem step_jmp_self {s : State} {w : Window} {r : Byte} {j : Fin 8} (hd : Dispatches s w (.jmp r))
    (hj : r.toNat = j.val) (hpc : (s.reg j).toNat = s.pc) : step s = .next s := by
  have hexec : exec (.jmp r) s = .next s := by rw [execJmp_of_val hj, hpc, State.setPc]
  rw [step_of_dispatches hd, hexec, completeResult, completeStep_of_pcSet hd.pcSet_eq]

theorem neverEnds_of_step_self {s : State} (h : step s = .next s) (hr : s.run = .running) : NeverEnds s :=
  fun n => ⟨s, core_run_of_step_self h n, hr⟩

/-- A run that never ends reaches running states only. -/
theorem NeverEnds.run_eq {s t : State} {n : Nat} (h : NeverEnds s) (ht : Sys2Proof.core.run n s = .next t) :
    t.run = .running := by
  obtain ⟨u, hu, hr⟩ := h n
  rw [hu] at ht
  exact Host.Outcome.next.inj ht ▸ hr

theorem NeverEnds.not_endsClean {s : State} (h : NeverEnds s) : ¬ EndsClean s := by
  rintro ⟨n, t, ht, hh⟩
  cases (h.run_eq ht).symm.trans hh

theorem NeverEnds.not_endsFaulted {s : State} (h : NeverEnds s) : ¬ EndsFaulted s := by
  rintro ⟨n, t, k, ht, hh⟩
  cases (h.run_eq ht).symm.trans hh

/-- Settles O24: the state steps to itself, so it is RUNNING after every number of steps. -/
theorem jumpToItselfNeverEnds : Obligations.JumpToItselfNeverEnds := by
  intro s w r j hd hj hpc
  have hstep := step_jmp_self hd hj hpc
  have hnever := neverEnds_of_step_self hstep hd.running
  exact ⟨core_run_of_step_self hstep, hnever, hnever.not_endsClean, hnever.not_endsFaulted⟩

end Sys2Proof.Machine
end

section
/-! PROOFS. The family of 41_alu.md: the formats of the ALU bytes, one rule for each shape of ALU operation (two operands,
one operand, division), and CMP. -/

namespace Sys2Proof.Machine

/-! ## The formats RR and R in the default table -/

/-- R77, R78: in the default table a byte's window decodes to its instruction, which encodes to as many bytes of the
window as the length says. -/
theorem decode_encode_default (o : Op) (x y : Byte) :
    decode OpcodeTable.default ⟨OpcodeTable.default.byteOf o, x, y⟩ = .ok (Instr.ofOp o x y) ∧
      encode OpcodeTable.default (Instr.ofOp o x y) =
        [OpcodeTable.default.byteOf o, x, y].take (1 + o.operandCounts.headD 0) := by
  have hd : decode OpcodeTable.default ⟨OpcodeTable.default.byteOf o, x, y⟩ = .ok (Instr.ofOp o x y) :=
    decode_of_ir_eq defaultTableConforms rfl
  refine ⟨hd, ?_⟩
  rw [encodeOfDecodeIsTheBytes _ _ _ defaultTableConforms (by decide) hd, instrLength,
    OpcodeTable.default_operandCount]

theorem encodedRR_ofOp {o : Op} (ho : o.operandCounts.headD 0 = 2) :
    EncodedRR (OpcodeTable.default.byteOf o) (Instr.ofOp o) := by
  intro a b
  have h := decode_encode_default o a b
  rwa [ho] at h

theorem encodedR_ofOp {o : Op} (ho : o.operandCounts.headD 0 = 1) {i : Byte → Instr}
    (hi : ∀ r x, Instr.ofOp o r x = i r) : EncodedR (OpcodeTable.default.byteOf o) i := by
  intro r x
  have h := decode_encode_default o r x
  rwa [ho, hi] at h

/-! ## One register or FL written, and nothing else -/

theorem frame_setReg (s : State) (i : Fin 8) (v : Byte) : Frame [i] [] s (s.setReg i v) :=
  ⟨fun _ hj => s.reg_setReg_of_ne (List.ne_of_not_mem_cons hj) v, fun _ _ => rfl, rfl⟩

theorem quiet_setReg (s : State) (i : Fin 8) (v : Byte) : Quiet s (s.setReg i v) :=
  ⟨rfl, rfl, rfl, rfl⟩

theorem frame_setFl (s : State) (v : Byte) : Frame [] [] s (s.setFl v) :=
  ⟨fun _ _ => rfl, fun _ _ => rfl, rfl⟩

/-! ## The index checks -/

theorem checksTwoIndices_of_withRegs {i : Byte → Byte → Instr} {g : State → Fin 8 → Fin 8 → Result}
    (hi : ∀ a b s, exec (i a b) s = withRegs a b s (g s)) : ChecksTwoIndices i :=
  fun s a b h => raisesFault_of_exec_eq ((hi a b s).trans (withRegs_of_gt h s _))

theorem checksIndex_of_withReg {i : Byte → Instr} {g : State → Fin 8 → Result}
    (hi : ∀ r s, exec (i r) s = withReg r s (g s)) : ChecksIndex i :=
  fun s r h => raisesFault_of_exec_eq ((hi r s).trans (withReg_of_gt h s _))

/-! ## Operations on two registers -/

theorem aluBinary_of_val {a b : Byte} {i j : Fin 8} (ha : a.toNat = i.val) (hb : b.toNat = j.val)
    (v : Byte → Byte → Byte) (s : State) :
    aluBinary v a b s = .next (s.setReg i (v (s.reg i) (s.reg j))) :=
  withRegs_of_val ha hb s _

/-- R120, R121: an instruction that is a two-operand ALU operation computing `v` writes what `v` is as a number. -/
theorem writesBinary_of_aluBinary {i : Byte → Byte → Instr} {v : Byte → Byte → Byte} {f : Nat → Nat → Nat}
    (hi : ∀ a b s, exec (i a b) s = aluBinary v a b s) (hv : ∀ p q, (v p q).toNat = f p.toNat q.toNat) :
    WritesBinary i f := by
  intro s a b ra rb ha hb
  refine ⟨_, (hi a b s).trans (aluBinary_of_val ha hb v s), ?_, frame_setReg s ra _, quiet_setReg s ra _⟩
  rw [State.reg_setReg_same, hv]

/-- The whole rule of a two-operand ALU operation of the default table, given its meaning and its value. -/
theorem aluBinary_rule {o : Op} {v : Byte → Byte → Byte} {f : Nat → Nat → Nat}
    (ho : o.operandCounts.headD 0 = 2) (hi : ∀ a b s, exec (Instr.ofOp o a b) s = aluBinary v a b s)
    (hv : ∀ p q, (v p q).toNat = f p.toNat q.toNat) :
    EncodedRR (OpcodeTable.default.byteOf o) (Instr.ofOp o) ∧ WritesBinary (Instr.ofOp o) f ∧
      ChecksTwoIndices (Instr.ofOp o) :=
  ⟨encodedRR_ofOp ho, writesBinary_of_aluBinary hi hv, checksTwoIndices_of_withRegs hi⟩

/-- Settles O37, by the rule of two-operand operations. -/
theorem addSubMulWrapModulo256 : Obligations.AddSubMulWrapModulo256 :=
  ⟨aluBinary_rule (o := .add) rfl (fun _ _ _ => rfl) addValue_toNat,
    aluBinary_rule (o := .sub) rfl (fun _ _ _ => rfl) subValue_toNat,
    aluBinary_rule (o := .mul) rfl (fun _ _ _ => rfl) mulValue_toNat⟩

/-- Settles O40, by the rule of two-operand operations. -/
theorem andOrXorAreBitwise : Obligations.AndOrXorAreBitwise :=
  ⟨aluBinary_rule (o := .and) rfl (fun _ _ _ => rfl) BitVec.toNat_and,
    aluBinary_rule (o := .or) rfl (fun _ _ _ => rfl) BitVec.toNat_or,
    aluBinary_rule (o := .xor) rfl (fun _ _ _ => rfl) BitVec.toNat_xor⟩

/-! ## Shifts: from 8 on no bit of the byte is left -/

theorem shlValue_toNat_eq_ite (p q : Byte) :
    (shlValue p q).toNat = if q.toNat < 8 then p.toNat * 2 ^ q.toNat % 256 else 0 := by
  rw [shlValue_toNat]
  split
  · rfl
  · have hdvd : 256 ∣ 2 ^ q.toNat := pow_dvd_pow 2 (Nat.le_of_not_lt ‹_›)
    exact Nat.mod_eq_zero_of_dvd (hdvd.mul_left _)

theorem shrValue_toNat_eq_ite (p q : Byte) :
    (shrValue p q).toNat = if q.toNat < 8 then p.toNat / 2 ^ q.toNat else 0 := by
  rw [shrValue_toNat]
  split
  · rfl
  · have hle : 256 ≤ 2 ^ q.toNat := Nat.pow_le_pow_right two_pos (Nat.le_of_not_lt ‹_›)
    exact Nat.div_eq_of_lt (lt_of_lt_of_le p.isLt hle)

/-- Settles O41, by the rule of two-operand operations and the two cases of the amount. -/
theorem shiftsUseTheWholeAmount : Obligations.ShiftsUseTheWholeAmount :=
  ⟨aluBinary_rule (o := .shl) rfl (fun _ _ _ => rfl) shlValue_toNat_eq_ite,
    aluBinary_rule (o := .shr) rfl (fun _ _ _ => rfl) shrValue_toNat_eq_ite⟩

/-! ## Operations on one register -/

theorem aluUnary_of_val {a : Byte} {i : Fin 8} (ha : a.toNat = i.val) (v : Byte → Byte) (s : State) :
    aluUnary v a s = .next (s.setReg i (v (s.reg i))) :=
  withReg_of_val ha s _

/-- R120: an instruction that is a one-operand ALU operation computing `v` writes what `v` is as a number. -/
theorem writesUnary_of_aluUnary {i : Byte → Instr} {v : Byte → Byte} {f : Nat → Nat}
    (hi : ∀ a s, exec (i a) s = aluUnary v a s) (hv : ∀ p, (v p).toNat = f p.toNat) : WritesUnary i f := by
  intro s a ra ha
  refine ⟨_, (hi a s).trans (aluUnary_of_val ha v s), ?_, frame_setReg s ra _, quiet_setReg s ra _⟩
  rw [State.reg_setReg_same, hv]

/-- The whole rule of a one-operand ALU operation of the default table, given its meaning and its value. -/
theorem aluUnary_rule {o : Op} {i : Byte → Instr} {v : Byte → Byte} {f : Nat → Nat}
    (ho : o.operandCounts.headD 0 = 1) (hop : ∀ r x, Instr.ofOp o r x = i r)
    (hi : ∀ a s, exec (i a) s = aluUnary v a s) (hv : ∀ p, (v p).toNat = f p.toNat) :
    EncodedR (OpcodeTable.default.byteOf o) i ∧ WritesUnary i f ∧ ChecksIndex i :=
  ⟨encodedR_ofOp ho hop, writesUnary_of_aluUnary hi hv, checksIndex_of_withReg hi⟩

/-- Settles O39, by the rule of one-operand operations. -/
theorem incDecNotUseOneRegister : Obligations.IncDecNotUseOneRegister :=
  ⟨aluUnary_rule (o := .inc) rfl (fun _ _ => rfl) (fun _ _ => rfl) incValue_toNat,
    aluUnary_rule (o := .dec) rfl (fun _ _ => rfl) (fun _ _ => rfl) decValue_toNat,
    aluUnary_rule (o := .not) rfl (fun _ _ => rfl) (fun _ _ => rfl) notValue_toNat⟩

/-! ## Division -/

section Division

variable {a b : Byte} {i j : Fin 8} {s : State}

theorem aluDivide_of_ne_zero (ha : a.toNat = i.val) (hb : b.toNat = j.val) (h0 : s.reg j ≠ 0)
    (v : Byte → Byte → Byte) : aluDivide v a b s = .next (s.setReg i (v (s.reg i) (s.reg j))) :=
  (withRegs_of_val ha hb s _).trans (if_neg h0)

theorem aluDivide_of_zero (ha : a.toNat = i.val) (hb : b.toNat = j.val) (h0 : s.reg j = 0)
    (v : Byte → Byte → Byte) : aluDivide v a b s = takeFault .divideByZero s :=
  (withRegs_of_val ha hb s _).trans (if_pos h0)

end Division

theorem writesQuotient_of_aluDivide {i : Byte → Byte → Instr} {v : Byte → Byte → Byte} {f : Nat → Nat → Nat}
    (hi : ∀ a b s, exec (i a b) s = aluDivide v a b s) (hv : ∀ p q, (v p q).toNat = f p.toNat q.toNat) :
    WritesQuotient i f := by
  intro s a b ra rb ha hb h0
  refine ⟨_, (hi a b s).trans (aluDivide_of_ne_zero ha hb h0 v), ?_, frame_setReg s ra _, quiet_setReg s ra _⟩
  rw [State.reg_setReg_same, hv]

theorem div_writesQuotient : WritesQuotient .div (fun p q => p / q) :=
  writesQuotient_of_aluDivide (fun _ _ _ => rfl) divValue_toNat

theorem mod_writesQuotient : WritesQuotient .mod (fun p q => p % q) :=
  writesQuotient_of_aluDivide (fun _ _ _ => rfl) modValue_toNat

/-- Settles O38: the index checks come first, then the divisor's, then the write. -/
theorem divModDivideOrFault : Obligations.DivModDivideOrFault :=
  ⟨⟨encodedRR_ofOp (o := .div) rfl, div_writesQuotient, checksTwoIndices_of_withRegs fun _ _ _ => rfl⟩,
    ⟨encodedRR_ofOp (o := .mod) rfl, mod_writesQuotient, checksTwoIndices_of_withRegs fun _ _ _ => rfl⟩,
    fun _ _ _ _ _ ha hb h0 =>
      ⟨raisesFault_of_exec_eq (aluDivide_of_zero ha hb h0 _), raisesFault_of_exec_eq (aluDivide_of_zero ha hb h0 _)⟩⟩

/-- Settles O44: DIV and MOD write the quotient and remainder of the same two numbers. -/
theorem quotientAndRemainderRebuildTheDividend : Obligations.QuotientAndRemainderRebuildTheDividend := by
  intro s a b ra rb ha hb h0
  obtain ⟨t, ht, hq, -⟩ := div_writesQuotient s a b ra rb ha hb h0
  obtain ⟨u, hu, hr, -⟩ := mod_writesQuotient s a b ra rb ha hb h0
  have hpos : 0 < (s.reg rb).toNat := Nat.pos_of_ne_zero fun h => h0 (BitVec.eq_of_toNat_eq h)
  refine ⟨t, u, ht, hu, ?_, ?_⟩
  · rw [hq, hr]
    exact (Nat.div_add_mod' _ _).symm
  · rw [hr]
    exact Nat.mod_lt _ hpos

/-! ## CMP -/

theorem cmpFlags_of_eq {p q : Byte} (h : p.toNat = q.toNat) : cmpFlags p q = 0b00000001 := by
  rw [cmpFlags, if_pos h]

theorem cmpFlags_of_gt {p q : Byte} (h : p.toNat > q.toNat) : cmpFlags p q = 0b00000010 := by
  rw [cmpFlags, if_neg h.ne', if_pos h]

theorem cmpFlags_of_lt {p q : Byte} (h : p.toNat < q.toNat) : cmpFlags p q = 0b00000100 := by
  rw [cmpFlags, if_neg h.ne, if_neg h.not_gt]

/-- R133: CMP writes FL whole, where its operand bytes name registers. -/
theorem execCmp_of_val {a b : Byte} {i j : Fin 8} (ha : a.toNat = i.val) (hb : b.toNat = j.val) (s : State) :
    exec (.cmp a b) s = .next (s.setFl (cmpFlags (s.reg i) (s.reg j))) :=
  withRegs_of_val ha hb s _

/-- Settles O42, by the three cases of the comparison. -/
theorem cmpWritesFlagsUnsigned : Obligations.CmpWritesFlagsUnsigned :=
  ⟨encodedRR_ofOp (o := .cmp) rfl, checksTwoIndices_of_withRegs fun _ _ _ => rfl,
    fun s _ _ _ _ ha hb => ⟨_, execCmp_of_val ha hb s, cmpFlags_of_eq, cmpFlags_of_gt, cmpFlags_of_lt,
      frame_setFl s _, rfl, rfl, rfl⟩⟩

/-- R133: CMP sets E where the values are equal, G where the first is the greater, L where it is the less. -/
theorem flags_setFl_cmpFlags (s : State) (p q : Byte) :
    ((s.setFl (cmpFlags p q)).flagE = true ↔ p = q) ∧ ((s.setFl (cmpFlags p q)).flagG = true ↔ q.toNat < p.toNat) ∧
      ((s.setFl (cmpFlags p q)).flagL = true ↔ p.toNat < q.toNat) := by
  simp only [State.flagE, State.flagG, State.flagL, State.setFl_fl, ← BitVec.toNat_inj]
  rcases lt_trichotomy p.toNat q.toNat with h | h | h
  · simp [cmpFlags_of_lt h, h, h.ne, h.le]
  · simp [cmpFlags_of_eq h, h]
  · simp [cmpFlags_of_gt h, h, h.ne', h.le]

/-- Settles O43: exchanging the operands exchanges G and L and keeps E. -/
theorem cmpIsAntisymmetric : Obligations.CmpIsAntisymmetric := by
  intro s s' a b ra rb ha hb hq hp
  obtain ⟨hE, hG, hL⟩ := flags_setFl_cmpFlags s (s.reg ra) (s.reg rb)
  obtain ⟨hE', hG', hL'⟩ := flags_setFl_cmpFlags s' (s.reg rb) (s.reg ra)
  refine ⟨_, _, execCmp_of_val ha hb s, execCmp_of_val ha hb s', ?_⟩
  rw [hq, hp, hE, hE', hG, hG', hL, hL']
  exact ⟨fun ⟨h, h'⟩ => Nat.lt_asymm h h', fun ⟨h, h'⟩ => Nat.lt_asymm h h', And.left, fun h => ⟨h, h.symm⟩⟩

end Sys2Proof.Machine
end

section
/-! PROOFS. The family of 42_data_movement.md: LDI, PRN, and LD and ST under both values of LDST_SUPPORT. -/

namespace Sys2Proof.Machine

/-! ## LDI -/

/-- R160: LDI writes its immediate, where its operand byte names a register. -/
theorem execLdi_of_val {r : Byte} {j : Fin 8} (h : r.toNat = j.val) (imm : Byte) (s : State) :
    exec (.ldi r imm) s = .next (s.setReg j imm) :=
  withReg_of_val h s _

/-- R79 point 1: a conforming table gives one operand count to an instruction that admits only one. -/
theorem Dispatches.operandCount_eq {s : State} {w : Window} {i : Instr} (hd : Dispatches s w i) {n : Nat}
    (hn : i.op.operandCounts = [n]) : (decodeFields w.ir).operandCount = n := by
  have hmem := OpcodeTable.operandCount_mem hd.conforms i.op
  rw [hn, (decode_ok hd.decoded).1] at hmem
  exact List.mem_singleton.mp hmem

/-- R106: LDI has C = 0 and two operand bytes in every conforming table. -/
theorem step_ldi_of_val {s : State} {w : Window} {r imm : Byte} {j : Fin 8} (hd : Dispatches s w (.ldi r imm))
    (h : r.toNat = j.val) : step s = .next ((s.setReg j imm).setPc (s.pc + 3)) := by
  have hrun : ∀ k, (s.setReg j imm).run ≠ .faulted k := fun k hk => by cases hd.running.symm.trans hk
  rw [step_of_dispatches hd, execLdi_of_val h, completeResult, completeStep_of_pcSet_false hrun hd.pcSet_eq,
    hd.operandCount_eq rfl, State.setReg_pc]

/-- Settles O45, by what LDI's meaning and its step are for a byte that names a register. -/
theorem ldiLoadsTheImmediate : Obligations.LdiLoadsTheImmediate := by
  refine ⟨encodedRR_ofOp (o := .ldi) rfl, fun imm => checksIndex_of_withReg fun _ _ => rfl,
    fun s w r imm hd hr => ?_, fun s r imm j h => ⟨_, execLdi_of_val h imm s, ?_⟩⟩
  · obtain ⟨j, hj⟩ := (reg_cases r).resolve_right (Nat.not_lt.mpr hr)
    exact ⟨_, step_ldi_of_val hd hj, rfl⟩
  · exact ⟨s.reg_setReg_same j imm, frame_setReg s j imm, quiet_setReg s j imm⟩

/-! ## PRN -/

/-- R161: PRN emits its register, where its operand byte names one. -/
theorem execPrn_of_val {r : Byte} {j : Fin 8} (h : r.toNat = j.val) (s : State) :
    exec (.prn r) s = .next (s.emit (s.reg j)) :=
  withReg_of_val h s _

theorem frame_emit (s : State) (v : Byte) : Frame [] [] s (s.emit v) :=
  ⟨fun _ _ => rfl, fun _ _ => rfl, rfl⟩

/-- Settles O46, by what PRN's meaning is for a byte that names a register. -/
theorem prnAppendsTheRegister : Obligations.PrnAppendsTheRegister :=
  ⟨encodedR_ofOp (o := .prn) rfl fun _ _ => rfl, checksIndex_of_withReg fun _ _ => rfl,
    fun s _ j h => ⟨_, execPrn_of_val h s, rfl, frame_emit s (s.reg j), rfl, rfl, rfl⟩⟩

/-! ## One byte of memory written, and nothing else -/

theorem frame_memWrite {s : State} (h : s.mem.wf = true) (a v : Byte) : Frame [] [a] s (s.memWrite a v) :=
  ⟨fun _ _ => rfl, fun _ hx => State.memRead_memWrite_of_ne h (List.ne_of_not_mem_cons hx) v, rfl⟩

theorem quiet_memWrite (s : State) (a v : Byte) : Quiet s (s.memWrite a v) :=
  ⟨rfl, rfl, rfl, rfl⟩

/-! ## LD and ST where LDST_SUPPORT = implemented -/

section Implemented

variable {s : State} {a b : Byte} {i j : Fin 8}

theorem whenLdst_of_implemented (h : s.cfg.ldst = .implemented) (f : State → Result) : whenLdst s f = f s := by
  rw [whenLdst, h]

/-- R162: LD reads memory at the address in its second register. -/
theorem execLd_of_implemented (h : s.cfg.ldst = .implemented) :
    exec (.ld a b) s = withRegs a b s fun i j => .next (s.setReg i (s.memRead (s.reg j))) := by
  rw [exec, execLd, whenLdst_of_implemented h]

/-- R163: ST writes memory at the address in its first register. -/
theorem execSt_of_implemented (h : s.cfg.ldst = .implemented) :
    exec (.st a b) s = withRegs a b s fun i j => .next (s.memWrite (s.reg i) (s.reg j)) := by
  rw [exec, execSt, whenLdst_of_implemented h]

theorem execLd_of_val (h : s.cfg.ldst = .implemented) (ha : a.toNat = i.val) (hb : b.toNat = j.val) :
    exec (.ld a b) s = .next (s.setReg i (s.memRead (s.reg j))) := by
  rw [execLd_of_implemented h, withRegs_of_val ha hb]

theorem execSt_of_val (h : s.cfg.ldst = .implemented) (ha : a.toNat = i.val) (hb : b.toNat = j.val) :
    exec (.st a b) s = .next (s.memWrite (s.reg i) (s.reg j)) := by
  rw [execSt_of_implemented h, withRegs_of_val ha hb]

theorem execLd_of_gt (h : s.cfg.ldst = .implemented) (hab : 7 < a.toNat ∨ 7 < b.toNat) :
    exec (.ld a b) s = takeFault .registerIndexOutOfRange s := by
  rw [execLd_of_implemented h, withRegs_of_gt hab]

theorem execSt_of_gt (h : s.cfg.ldst = .implemented) (hab : 7 < a.toNat ∨ 7 < b.toNat) :
    exec (.st a b) s = takeFault .registerIndexOutOfRange s := by
  rw [execSt_of_implemented h, withRegs_of_gt hab]

end Implemented

/-- Settles O47: LD is one register write, ST one memory write, and both check their indices before it. -/
theorem ldAndStMoveOneByteWhenImplemented : Obligations.LdAndStMoveOneByteWhenImplemented := by
  refine ⟨encodedRR_ofOp (o := .ld) rfl, encodedRR_ofOp (o := .st) rfl, fun s a b ra rb hl hm ha hb => ⟨?_, ?_⟩,
    fun s a b hl hab => ⟨?_, ?_⟩⟩
  · exact ⟨_, execLd_of_val hl ha hb, s.reg_setReg_same ra _, frame_setReg s ra _, quiet_setReg s ra _⟩
  · exact ⟨_, execSt_of_val hl ha hb, State.memRead_memWrite_same hm _ _, frame_memWrite hm _ _,
      quiet_memWrite s _ _⟩
  · exact raisesFault_of_exec_eq (execLd_of_gt hl hab)
  · exact raisesFault_of_exec_eq (execSt_of_gt hl hab)

/-! ## LD and ST where LDST_SUPPORT = unsupported -/

/-- R243: a fault of the instruction is the fault of its step, since the pc update does not follow a fault. -/
theorem step_of_exec_takeFault {s : State} {w : Window} {i : Instr} {k : FaultKind} (hd : Dispatches s w i)
    (h : exec i s = takeFault k s) : step s = takeFault k s := by
  rw [step_of_dispatches hd, h, takeFault, completeResult, completeStep_of_faulted rfl]

/-- Settles O48: in a conforming table the two bytes dispatch to LD and ST, which check LDST_SUPPORT first. -/
theorem ldAndStAreRejectedWhenUnsupported : Obligations.LdAndStAreRejectedWhenUnsupported := by
  intro s w hr hc hl hw hir
  rcases hir with h | h
  · have hd : Dispatches s w (.ld w.opA w.opB) := ⟨hr, hc, hw, decode_of_ir_eq (o := .ld) hc h⟩
    exact stepFaults_of_step_eq (step_of_exec_takeFault hd (execLd_of_unsupported hl _ _))
  · have hd : Dispatches s w (.st w.opA w.opB) := ⟨hr, hc, hw, decode_of_ir_eq (o := .st) hc h⟩
    exact stepFaults_of_step_eq (step_of_exec_takeFault hd (execSt_of_unsupported hl _ _))

end Sys2Proof.Machine
end

section
/-! PROOFS. The family of 43_stack_subroutine.md: the one push that PUSH and CALL make, what POP and RET read back, and
the balance of each pair. -/

namespace Sys2Proof.Machine

/-! ## SP moved down and up -/

theorem State.sp_decSp_toNat (s : State) : s.decSp.sp.toNat = (s.sp.toNat + 255) % 256 := by
  rw [State.sp_decSp]
  exact decValue_toNat s.sp

theorem State.sp_incSp_toNat (s : State) : s.incSp.sp.toNat = (s.sp.toNat + 1) % 256 := by
  rw [State.sp_incSp]
  exact incValue_toNat s.sp

/-- What an operand that names R7 sees once SP is down (decision D21). -/
theorem State.reg_decSp (s : State) (j : Fin 8) : s.decSp.reg j = if j = 7 then s.decSp.sp else s.reg j := by
  split
  · subst j; rfl
  · exact s.reg_setReg_of_ne ‹_› _

/-- R180: one down and one up again is the same byte, across the wrap at 0 too. -/
theorem eq_of_toNat_down_up {p q r : Byte} (hq : q.toNat = (p.toNat + 255) % 256)
    (hr : r.toNat = (q.toNat + 1) % 256) : r = p := by
  have := p.isLt
  exact BitVec.eq_of_toNat_eq (by omega)

/-! ## Frames in sequence -/

theorem Frame.trans {rs rs' : List (Fin 8)} {cs cs' : List Byte} {s t u : State} (h : Frame rs cs s t)
    (h' : Frame rs' cs' t u) : Frame (rs ++ rs') (cs ++ cs') s u where
  regs j hj := by
    obtain ⟨hrs, hrs'⟩ := not_or.mp (mt List.mem_append.mpr hj)
    rw [h'.regs j hrs', h.regs j hrs]
  mem a ha := by
    obtain ⟨hcs, hcs'⟩ := not_or.mp (mt List.mem_append.mpr ha)
    rw [h'.mem a hcs', h.mem a hcs]
  cfg := h'.cfg.trans h.cfg

theorem frame_setPc (s : State) (p : Nat) : Frame [] [] s (s.setPc p) :=
  ⟨fun _ _ => rfl, fun _ _ => rfl, rfl⟩

/-! ## The push of one byte, which PUSH and CALL share -/

/-- R180: SP down, then the byte stored at the new SP. -/
def State.pushByte (s : State) (v : Byte) : State := s.decSp.memWrite s.decSp.sp v

theorem State.sp_pushByte (s : State) (v : Byte) : (s.pushByte v).sp = s.decSp.sp := rfl

theorem State.memRead_pushByte {s : State} (h : s.mem.wf = true) (v : Byte) :
    (s.pushByte v).memRead s.decSp.sp = v :=
  State.memRead_memWrite_same (s := s.decSp) h s.decSp.sp v

theorem frame_pushByte {s : State} (h : s.mem.wf = true) (v : Byte) :
    Frame [7] [s.decSp.sp] s (s.pushByte v) :=
  (frame_setReg s 7 _).trans (frame_memWrite (s := s.decSp) h s.decSp.sp v)

theorem quiet_pushByte (s : State) (v : Byte) : Quiet s (s.pushByte v) :=
  ⟨rfl, rfl, rfl, rfl⟩

/-- R183: where an instruction executes, the return address fits its byte. -/
theorem State.returnAddress_toNat {s : State} (h : s.pc ≤ 253) : s.returnAddress.toNat = s.pc + 2 := by
  have := trunc8_natCast_toNat (s.pc + 2)
  rw [State.returnAddress]
  push_cast at this
  omega

/-! ## The four instructions, where an operand byte names a register -/

section Meanings

variable {r : Byte} {j : Fin 8}

/-- R181. -/
theorem execPush_of_val (h : r.toNat = j.val) (s : State) :
    exec (.push r) s = .next (s.pushByte (s.decSp.reg j)) :=
  withReg_of_val h s _

/-- R182. -/
theorem execPop_of_val (h : r.toNat = j.val) (s : State) : exec (.pop r) s = .next (s.loadTop j).incSp :=
  withReg_of_val h s _

/-- R183. -/
theorem execCall_of_val (h : r.toNat = j.val) (s : State) :
    exec (.call r) s = .next ((s.pushByte s.returnAddress).setPc (s.decSp.reg j).toNat) :=
  withReg_of_val h s _

end Meanings

/-- R184: RET has no operand and checks nothing. -/
theorem execRet_eq (s : State) : exec .ret s = .next (s.setPc (s.memRead s.sp).toNat).incSp := rfl

/-! ## POP's two register writes -/

theorem frame_loadTop_incSp (s : State) (j : Fin 8) : Frame [j, 7] [] s (s.loadTop j).incSp :=
  (frame_setReg s j _).trans (frame_setReg (s.loadTop j) 7 _)

theorem quiet_loadTop_incSp (s : State) (j : Fin 8) : Quiet s (s.loadTop j).incSp :=
  ⟨rfl, rfl, rfl, rfl⟩

/-- R182: a register other than R7 keeps the byte it was loaded with. -/
theorem State.reg_loadTop_incSp (s : State) {j : Fin 8} (h : j ≠ 7) : (s.loadTop j).incSp.reg j = s.memRead s.sp := by
  rw [State.incSp_eq, State.reg_setReg_of_ne _ h, State.loadTop, State.reg_setReg_same]

/-- SP after the load: the loaded byte if the operand names R7, else as it was. -/
theorem State.sp_loadTop (s : State) (j : Fin 8) : (s.loadTop j).sp = if 7 = j then s.memRead s.sp else s.sp :=
  s.reg_setReg j 7 _

/-! ## The format N in the default table -/

theorem encodedN_ofOp {o : Op} (ho : o.operandCounts.headD 0 = 0) {i : Instr} (hi : ∀ x y, Instr.ofOp o x y = i) :
    EncodedN (OpcodeTable.default.byteOf o) i := by
  intro x y
  have h := decode_encode_default o x y
  rwa [ho, hi] at h

/-! ## The obligations about one instruction -/

/-- Settles O49: PUSH is the push of its register, read once SP is down. -/
theorem pushStoresBelowTheStackPointer : Obligations.PushStoresBelowTheStackPointer := by
  refine ⟨encodedR_ofOp (o := .push) rfl fun _ _ => rfl, checksIndex_of_withReg fun _ _ => rfl,
    fun s r j hm hr => ⟨_, execPush_of_val hr s, s.sp_pushByte _, s.sp_decSp_toNat, ?_, frame_pushByte hm _,
      quiet_pushByte s _⟩⟩
  rw [State.memRead_pushByte hm, State.reg_decSp]

/-- Settles O50: POP's load, then SP up, by whether its operand names R7. -/
theorem popLoadsThenRaisesTheStackPointer : Obligations.PopLoadsThenRaisesTheStackPointer := by
  refine ⟨encodedR_ofOp (o := .pop) rfl fun _ _ => rfl, checksIndex_of_withReg fun _ _ => rfl,
    fun s r j hr => ⟨_, execPop_of_val hr s, fun h7 => ⟨s.reg_loadTop_incSp h7, ?_⟩, fun h7 => ?_,
      frame_loadTop_incSp s j, quiet_loadTop_incSp s j⟩⟩
  · rw [State.sp_incSp_toNat, State.sp_loadTop, if_neg h7.symm]
  · rw [State.sp_incSp_toNat, State.sp_loadTop, if_pos h7.symm]

/-- Settles O51: CALL is the push of the return address, then one write of pc. -/
theorem callPushesTheReturnAddress : Obligations.CallPushesTheReturnAddress := by
  refine ⟨encodedR_ofOp (o := .call) rfl fun _ _ => rfl, checksIndex_of_withReg fun _ _ => rfl,
    fun s r j hm hr => ⟨_, execCall_of_val hr s, s.sp_pushByte s.returnAddress, s.sp_decSp_toNat, fun hp => ?_, ?_,
      (frame_pushByte hm s.returnAddress).trans (frame_setPc _ _), rfl, rfl, rfl⟩⟩
  · rw [State.memRead_setPc, State.memRead_pushByte hm, State.returnAddress_toNat hp]
  · rw [State.setPc_pc, State.reg_decSp]

/-- Settles O52: RET is one write of pc, then SP up. -/
theorem retPopsThePc : Obligations.RetPopsThePc :=
  ⟨encodedN_ofOp (o := .ret) rfl fun _ _ => rfl,
    fun s => ⟨_, execRet_eq s, rfl, State.sp_incSp_toNat _, (frame_setPc s _).trans (frame_setReg _ 7 _), rfl, rfl,
      rfl⟩⟩

/-! ## The balance of a pair -/

/-- Settles O53: R7 is down and up again, whether or not it is the operand; the operand gets its byte back; the rules
of PUSH and POP leave every other register alone. -/
theorem pushThenPopRestoresAllRegisters : Obligations.PushThenPopRestoresAllRegisters := by
  obtain ⟨-, -, hpush⟩ := pushStoresBelowTheStackPointer
  obtain ⟨-, -, hpop⟩ := popLoadsThenRaisesTheStackPointer
  intro s r j hm hr
  obtain ⟨t, ht, htsp, hdown, htop, hft, -⟩ := hpush s r j hm hr
  obtain ⟨u, hu, hne, heq, hfu, -⟩ := hpop t r j hr
  rw [htsp, htop] at hne heq
  refine ⟨t, u, ht, hu, fun x => ?_⟩
  by_cases hx7 : x = 7
  · have hup : u.sp.toNat = (s.decSp.sp.toNat + 1) % 256 := by
      by_cases hj : j = 7
      · rw [heq hj, if_pos hj]
      · exact (hne hj).2
    rw [hx7]
    exact eq_of_toNat_down_up hdown hup
  · by_cases hxj : x = j
    · subst x
      obtain ⟨hreg, -⟩ := hne hx7
      rw [hreg, if_neg hx7]
    · rw [hfu.regs x (by simp [hxj, hx7]), hft.regs x (by simp [hx7])]

/-- Settles O54, from the rules of CALL and RET. -/
theorem retResumesAfterTheCall : Obligations.RetResumesAfterTheCall := by
  obtain ⟨-, -, hcall⟩ := callPushesTheReturnAddress
  obtain ⟨-, hret⟩ := retPopsThePc
  intro s r j hm hp hr
  obtain ⟨t, ht, htsp, hdown, htop, -⟩ := hcall s r j hm hr
  refine ⟨t, ht, fun u husp hutop => ?_⟩
  obtain ⟨v, hv, hpc, hup, -⟩ := hret u
  rw [husp, htsp] at hup
  refine ⟨v, hv, ?_, eq_of_toNat_down_up hdown hup⟩
  rw [hpc, hutop, htsp, htop hp]

end Sys2Proof.Machine
end

section
/-! PROOFS. The family of 44_control_flow.md: one rule for every jump, which takes the condition it is taken on; JMP's
always holds. -/

namespace Sys2Proof.Machine

/-! ## The two paths of a jump -/

theorem jumpTo_of_val {r : Byte} {j : Fin 8} (h : r.toNat = j.val) (s : State) :
    jumpTo r s = .next (s.setPc (s.reg j).toNat) :=
  withReg_of_val h s _

theorem jumpTo_of_gt {r : Byte} (h : 7 < r.toNat) (s : State) :
    jumpTo r s = takeFault .registerIndexOutOfRange s :=
  withReg_of_gt h s _

theorem jumpIf_of_taken {c : Bool} (h : c = true) (r : Byte) (s : State) : jumpIf c r s = jumpTo r s :=
  if_pos h

theorem jumpIf_of_not_taken {c : Bool} (h : c ≠ true) (r : Byte) (s : State) :
    jumpIf c r s = .next (s.setPc (s.pc + 2)) :=
  if_neg h

theorem jumpsTo_of_exec_eq {i : Instr} {s : State} {p : Nat} (h : exec i s = .next (s.setPc p)) : JumpsTo i s p :=
  ⟨_, h, s.setPc_pc p, frame_setPc s p, rfl, rfl, rfl⟩

/-! ## The rule of a jump -/

section Rule

variable {i : Byte → Instr} {b : State → Bool} {c : State → Prop}

/-- R200: an instruction that is a jump on the flag value `b` is taken exactly on the condition that `b` decides. -/
theorem jumpsWhen_of_jumpIf (hi : ∀ r s, exec (i r) s = jumpIf (b s) r s) (hc : ∀ s, b s = true ↔ c s) :
    JumpsWhen i c := by
  intro s r
  have taken (h : c s) : exec (i r) s = jumpTo r s := (hi r s).trans (jumpIf_of_taken ((hc s).mpr h) r s)
  refine ⟨fun j h hj => ?_, fun h hr => ?_, fun h => ?_⟩
  · exact jumpsTo_of_exec_eq ((taken h).trans (jumpTo_of_val hj s))
  · exact raisesFault_of_exec_eq ((taken h).trans (jumpTo_of_gt hr s))
  · exact jumpsTo_of_exec_eq ((hi r s).trans (jumpIf_of_not_taken (mt (hc s).mp h) r s))

/-- The format of a jump's byte in the default table, and its meaning. -/
theorem jump_rule {o : Op} (ho : o.operandCounts.headD 0 = 1) (hOp : ∀ r x, Instr.ofOp o r x = i r)
    (hi : ∀ r s, exec (i r) s = jumpIf (b s) r s) (hc : ∀ s, b s = true ↔ c s) :
    EncodedR (OpcodeTable.default.byteOf o) i ∧ JumpsWhen i c :=
  ⟨encodedR_ofOp ho hOp, jumpsWhen_of_jumpIf hi hc⟩

end Rule

/-! ## The conditions -/

theorem State.not_flagE_iff (s : State) : (!s.flagE) = true ↔ s.fl.getLsbD 0 = false := by
  rw [Bool.not_eq_true', State.flagE]

theorem State.flagL_or_flagE_iff (s : State) :
    (s.flagL || s.flagE) = true ↔ s.fl.getLsbD 2 = true ∨ s.fl.getLsbD 0 = true :=
  Bool.or_eq_true_iff

theorem State.flagG_or_flagE_iff (s : State) :
    (s.flagG || s.flagE) = true ↔ s.fl.getLsbD 1 = true ∨ s.fl.getLsbD 0 = true :=
  Bool.or_eq_true_iff

/-! ## The obligations about the jumps -/

/-- Settles O55: JMP is the jump whose condition always holds. -/
theorem jmpSetsPcFromTheRegister : Obligations.JmpSetsPcFromTheRegister :=
  jump_rule (o := .jmp) (b := fun _ => true) rfl (fun _ _ => rfl) (fun _ _ => rfl) fun _ => iff_of_true rfl trivial

/-- Settles O56: each conditional jump is the jump on its bits of FL. -/
theorem conditionalJumpsFollowTheFlags : Obligations.ConditionalJumpsFollowTheFlags := by
  refine ⟨?jeq, ?jne, ?jgt, ?jlt, ?jle, ?jge⟩
  case jeq => exact jump_rule (o := .jeq) rfl (fun _ _ => rfl) (fun _ _ => rfl) fun _ => Iff.rfl
  case jne => exact jump_rule (o := .jne) rfl (fun _ _ => rfl) (fun _ _ => rfl) State.not_flagE_iff
  case jgt => exact jump_rule (o := .jgt) rfl (fun _ _ => rfl) (fun _ _ => rfl) fun _ => Iff.rfl
  case jlt => exact jump_rule (o := .jlt) rfl (fun _ _ => rfl) (fun _ _ => rfl) fun _ => Iff.rfl
  case jle => exact jump_rule (o := .jle) rfl (fun _ _ => rfl) (fun _ _ => rfl) State.flagL_or_flagE_iff
  case jge => exact jump_rule (o := .jge) rfl (fun _ _ => rfl) (fun _ _ => rfl) State.flagG_or_flagE_iff

end Sys2Proof.Machine
end

section
/-! PROOFS. The family of 45_halt.md: what HLT and its step do, and that no other step halts. -/

namespace Sys2Proof.Machine

/-! ## HLT -/

/-- R220: HLT is one write of the run state. -/
theorem execHlt_eq (s : State) : exec .hlt s = .next (s.setRun .halted) := rfl

theorem frame_setRun (s : State) (r : RunState) : Frame [] [] s (s.setRun r) :=
  ⟨fun j _ => s.reg_setRun r j, fun a _ => s.memRead_setRun r a, s.setRun_cfg r⟩

/-- R106: HLT has C = 0 and no operand byte in every conforming table. -/
theorem step_hlt {s : State} {w : Window} (hd : Dispatches s w .hlt) :
    step s = .next ((s.setRun .halted).setPc (s.pc + 1)) := by
  have hrun : ∀ k, (s.setRun .halted).run ≠ .faulted k := fun k hk => by cases hk
  rw [step_of_dispatches hd, execHlt_eq, completeResult, completeStep_of_pcSet_false hrun hd.pcSet_eq,
    hd.operandCount_eq rfl, State.setRun_pc]

/-- R26: from a running state, only HLT answers a halted one. -/
theorem eq_hlt_of_exec_halted {i : Instr} {s t : State} (hr : s.run = .running) (h : exec i s = .next t)
    (ht : t.run = .halted) : i = .hlt := by
  rcases exec_run h with hkeep | ⟨hi, -⟩ | ⟨k, -, rfl⟩
  · rw [hkeep, hr] at ht
    cases ht
  · exact hi
  · cases ht

/-! ## The obligations about HLT -/

/-- Settles O23: neither a fault of the fetch or of dispatch nor the pc update halts, and of the instructions only HLT
does. -/
theorem onlyHltHalts : Obligations.OnlyHltHalts := by
  intro s t hr hc h
  constructor
  · intro ht
    rcases step_next hc h with ⟨hn, -⟩ | ⟨-, -, rfl⟩ | ⟨_, _, -, -, -, rfl⟩ | ⟨w, i, u, hd, he, rfl⟩
    · exact absurd hr hn
    · cases ht
    · cases ht
    · rw [completeStep_run] at ht
      obtain rfl := eq_hlt_of_exec_halted hr he ht
      exact ⟨w, hd⟩
  · rintro ⟨w, hd⟩
    rw [step_hlt hd] at h
    rw [← Host.Outcome.next.inj h, State.setPc_run, State.setRun_run]

/-- Settles O57, by what HLT's meaning and its step are; at 254 and 255 it is the fetch that faults. -/
theorem hltStopsTheLoop : Obligations.HltStopsTheLoop := by
  refine ⟨encodedN_ofOp (o := .hlt) rfl fun _ _ => rfl, fun s => ?_, fun s w hd => ?_, fun s hr hc hp => ?_⟩
  · exact ⟨_, execHlt_eq s, s.setRun_run _, frame_setRun s _, s.setRun_fl _, s.setRun_pc _, s.setRun_out _⟩
  · exact ⟨_, step_hlt hd, rfl, rfl⟩
  · exact (fetchAboveTheTopFaults s hr hc).1 (by omega)

end Sys2Proof.Machine
end

section
/-! PROOFS. The family of 60_exceptions.md: a fault changes the run state alone (R243), and the fault of a step is the
first of its checks that fails, in the order of R249. -/

namespace Sys2Proof.Machine

/-! ## Every instruction answers -/

/-- Settles O22: none of the shared operations is without an answer. -/
theorem everyInstructionHasANextState : Obligations.EveryInstructionHasANextState :=
  exec_total

/-! ## A fault changes the run state alone -/

/-- R243: a running step that ends faulted is one write of the run state, wherever in the step the fault is raised. -/
theorem eq_setRun_of_step_faulted {s t : State} {k : FaultKind} (hr : s.run = .running) (h : step s = .next t)
    (hk : t.run = .faulted k) : t = s.setRun (.faulted k) := by
  rcases step_next_cases h with rfl | ⟨k', rfl⟩ | ⟨w, i, u, -, he, rfl⟩
  · rw [hr] at hk
    cases hk
  · rw [← hk, State.setRun_run]
  · rw [completeStep_run] at hk
    rw [completeStep_of_faulted hk]
    rcases exec_run he with hu | ⟨-, hu⟩ | ⟨k', -, rfl⟩
    · rw [hu, hr] at hk
      cases hk
    · rw [hu] at hk
      cases hk
    · rw [← hk, State.setRun_run]

/-- Settles O25: what a faulting step answers is its first state with another run state. -/
theorem faultsArePrecise : Obligations.FaultsArePrecise := by
  intro s t k hr h hk
  rw [eq_setRun_of_step_faulted hr h hk]
  exact ⟨faultedFrom_setRun k s, s.setRun_mem _⟩

/-! ## The checks of R249, each followed by the rest -/

/-- R246: the indices are checked in operand order; `rest` is what the later checks find. -/
def indexFault (rest : Option FaultKind) : List Byte → Option FaultKind
  | [] => rest
  | b :: bs => if 7 < b.toNat then some .registerIndexOutOfRange else indexFault rest bs

theorem indexFault_eq_ite (rest : Option FaultKind) (bs : List Byte) :
    indexFault rest bs = if ∃ b ∈ bs, 7 < b.toNat then some .registerIndexOutOfRange else rest := by
  induction bs with
  | nil => simp [indexFault]
  | cons b bs ih =>
    by_cases hb : 7 < b.toNat
    · simp [indexFault, hb]
    · simp [indexFault, hb, ih]

/-- R247: the check of the divisor, for an instruction that has one. -/
def divisorFault (s : State) : Option Byte → Option FaultKind
  | none => none
  | some b => if ∃ j ∈ regIndex? b, s.reg j = 0 then some .divideByZero else none

theorem divisorFault_of_val {b : Byte} {j : Fin 8} (h : b.toNat = j.val) (s : State) :
    divisorFault s (some b) = if s.reg j = 0 then some .divideByZero else none := by
  simp [divisorFault, regIndex?_of_val h]

/-- The last checks of R249, for the instructions that dispatch whatever LDST_SUPPORT is. -/
theorem expectedFault_eq_indexFault {i : Instr} (hld : i.op ≠ .ld) (hst : i.op ≠ .st) (s : State) :
    i.expectedFault s = indexFault (divisorFault s i.divisor?) (i.usedIndices s) := by
  rw [indexFault_eq_ite, Instr.expectedFault]
  cases h : i.divisor? <;> simp [hld, hst, divisorFault]

/-- The checks of R249 for LD and ST, whose dispatch depends on LDST_SUPPORT. -/
theorem expectedFault_eq_of_ldst {i : Instr} (hi : i.op = .ld ∨ i.op = .st) (hd : i.divisor? = none) (s : State) :
    i.expectedFault s =
      if s.cfg.ldst = .unsupported then some .unsupportedOpcode else indexFault none (i.usedIndices s) := by
  simp [indexFault_eq_ite, Instr.expectedFault, hi, hd]

/-! ## What an outcome records -/

/-- The outcome `x` of an operation or a step from `s` records exactly the fault `c`; where `c` is no fault, the run
state stays as it was or becomes HALTED. -/
def Records (s : State) (x : Result) : Option FaultKind → Prop
  | some k => x = takeFault k s
  | none => ∃ t, x = .next t ∧ (t.run = s.run ∨ t.run = .halted)

section Operations

variable {s : State} {c : Option FaultKind}

theorem records_next {t : State} (h : t.run = s.run) : Records s (.next t) none := ⟨t, rfl, .inl h⟩

theorem records_withReg {r : Byte} {bs : List Byte} {f : Fin 8 → Result}
    (hf : ∀ i, r.toNat = i.val → Records s (f i) (indexFault c bs)) :
    Records s (withReg r s f) (indexFault c (r :: bs)) := by
  rcases reg_cases r with ⟨i, hi⟩ | hr
  · rw [withReg_of_val hi, indexFault, if_neg (by omega)]
    exact hf i hi
  · rw [withReg_of_gt hr, indexFault, if_pos hr, Records]

theorem records_withRegs {a b : Byte} {f : Fin 8 → Fin 8 → Result}
    (hf : ∀ i j, b.toNat = j.val → Records s (f i j) c) :
    Records s (withRegs a b s f) (indexFault c [a, b]) :=
  records_withReg fun i _ => records_withReg (hf i)

theorem records_aluDivide (v : Byte → Byte → Byte) (a b : Byte) :
    Records s (aluDivide v a b s) (indexFault (divisorFault s (some b)) [a, b]) := by
  refine records_withRegs fun i j hj => ?_
  rw [divisorFault_of_val hj]
  by_cases h0 : s.reg j = 0
  · rw [if_pos h0, if_pos h0, Records]
  · rw [if_neg h0, if_neg h0]
    exact records_next (s.setReg_run i _)

theorem records_whenLdst {f : State → Result} (hf : Records s (f s) c) :
    Records s (whenLdst s f) (if s.cfg.ldst = .unsupported then some .unsupportedOpcode else c) := by
  cases h : s.cfg.ldst with
  | unsupported => rw [whenLdst_of_unsupported h, if_pos rfl, Records]
  | implemented => rwa [whenLdst_of_implemented h, if_neg nofun]

/-- R200: a jump not taken uses no index. -/
theorem records_jumpIf (taken : Bool) (r : Byte) :
    Records s (jumpIf taken r s) (indexFault none (if taken then [r] else [])) := by
  cases taken with
  | false => exact records_next (s.setPc_run _)
  | true => exact records_withReg fun _ _ => records_next (s.setPc_run _)

/-- R106, R243: the pc update neither raises a fault nor follows one. -/
theorem records_completeResult {x : Result} (h : Records s x c) (ir : Byte) : Records s (completeResult ir x) c := by
  cases c with
  | some k => rw [h]; exact congrArg _ (completeStep_of_faulted rfl)
  | none =>
    obtain ⟨t, rfl, ht⟩ := h
    exact ⟨_, rfl, by rwa [completeStep_run]⟩

end Operations

/-- R246 to R249: an instruction records the first of its own checks that fails. -/
theorem records_exec (i : Instr) (s : State) : Records s (exec i s) (i.expectedFault s) := by
  cases i with
  | ld a b =>
    rw [expectedFault_eq_of_ldst (.inl rfl) rfl, exec, execLd]
    exact records_whenLdst (records_withRegs fun _ _ _ => records_next rfl)
  | st a b =>
    rw [expectedFault_eq_of_ldst (.inr rfl) rfl, exec, execSt]
    exact records_whenLdst (records_withRegs fun _ _ _ => records_next rfl)
  | hlt =>
    rw [expectedFault_eq_indexFault (by nofun) (by nofun)]
    exact ⟨_, rfl, .inr rfl⟩
  | ret =>
    rw [expectedFault_eq_indexFault (by nofun) (by nofun)]
    exact records_next rfl
  | push | pop | prn | call | jmp | inc | dec | not | ldi =>
    rw [expectedFault_eq_indexFault (by nofun) (by nofun)]
    exact records_withReg fun _ _ => records_next rfl
  | jeq | jne | jgt | jlt | jle | jge =>
    rw [expectedFault_eq_indexFault (by nofun) (by nofun)]
    exact records_jumpIf _ _
  | add | sub | mul | cmp | and | or | xor | shl | shr =>
    rw [expectedFault_eq_indexFault (by nofun) (by nofun)]
    exact records_withRegs fun _ _ _ => records_next rfl
  | div | mod =>
    rw [expectedFault_eq_indexFault (by nofun) (by nofun)]
    exact records_aluDivide _ _ _

/-! ## The first check of a step that fails -/

section Step

variable {s : State} {w : Window}

theorem expectedFault_of_pc_gt (h : 253 < s.pc) : s.expectedFault = some .addressOutOfRange :=
  if_pos (by omega)

/-- R82, R249: a byte in no row of the table is the first check that fails. -/
theorem expectedFault_of_decode_error {e : DecodeReject} (hw : fetchWindow s = some w)
    (hd : decode s.cfg.table w = .error e) : s.expectedFault = some (rejectKind e) := by
  obtain ⟨hp, rfl⟩ := fetchWindow_some hw
  rw [State.expectedFault, if_neg (by omega)]
  cases hl : s.cfg.table.lookup (s.mem.read s.pc) with
  | none =>
    rw [(decode_error hd).2, apply_ite rejectKind, apply_ite some]
    rfl
  | some o => exact absurd (OpcodeTable.lookup_some hl) ((decode_error hd).1 o)

/-- R249: past dispatch, the checks left are the instruction's own. -/
theorem expectedFault_of_decode_ok {i : Instr} (hw : fetchWindow s = some w)
    (hd : decode s.cfg.table w = .ok i) : s.expectedFault = i.expectedFault s := by
  obtain ⟨hp, rfl⟩ := fetchWindow_some hw
  rw [State.expectedFault, if_neg (by omega)]
  cases hl : s.cfg.table.lookup (s.mem.read s.pc) with
  | none => exact absurd (decode_ok hd).1 (OpcodeTable.lookup_none hl i.op)
  | some o =>
    simp only [decode, hl] at hd
    rw [← Except.ok.inj hd]

/-- R249: fetch range, then dispatch, then the checks of the instruction. -/
theorem records_step (hr : s.run = .running) (hc : s.cfg.table.conforms = true) :
    Records s (step s) s.expectedFault := by
  by_cases hp : 253 < s.pc
  · rw [expectedFault_of_pc_gt hp]
    exact step_of_pc_gt hr hc hp
  have hw := fetchWindow_eq_some (Nat.le_of_not_lt hp)
  cases hd : decode s.cfg.table ⟨s.mem.read s.pc, s.mem.read (s.pc + 1), s.mem.read (s.pc + 2)⟩ with
  | error e =>
    rw [expectedFault_of_decode_error hw hd]
    exact step_of_decode_error hr hc hw hd
  | ok i =>
    rw [expectedFault_of_decode_ok hw hd, step_of_dispatches ⟨hr, hc, hw, hd⟩]
    exact records_completeResult (records_exec i s) _

end Step

/-- Settles O26, by what a step records; a run state that stays RUNNING or becomes HALTED is no fault. -/
theorem firstFailedCheckIsTheFault : Obligations.FirstFailedCheckIsTheFault := by
  intro s hr hc
  have h := records_step hr hc
  generalize s.expectedFault = c at h ⊢
  cases c with
  | some k => exact stepFaults_of_step_eq h
  | none =>
    obtain ⟨t, ht, hrun⟩ := h
    refine ⟨t, ht, fun k hk => ?_⟩
    rcases hrun with hrun | hrun <;> simp [hk, hr] at hrun

end Sys2Proof.Machine
end

section
/-! PROOFS. The family of 70_reset_and_hazards.md: the state a launch begins in, the default program, and the register
operands of a well-formed instruction. -/

namespace Sys2Proof.Machine

/-! ## The load of an image -/

/-- R276: from `a` on the bytes of the image, as far as it reaches; every other cell keeps its value. -/
theorem Memory.read_load {m : Memory} (hs : m.Sorted) (a : Nat) (image : List Byte) (x : Nat) :
    (m.load a image).read x = if x < a then m.read x else image.getD (x - a) (m.read x) := by
  induction image generalizing m a with
  | nil => simp [Memory.load]
  | cons v vs ih =>
    rw [Memory.load, ih (Memory.sorted_write hs a v), Memory.read_write_of_sorted hs]
    rcases Nat.lt_trichotomy x a with hlt | rfl | hgt
    · rw [if_pos (by omega), if_neg (by omega), if_pos hlt]
    · simp
    · obtain ⟨d, rfl⟩ := Nat.exists_eq_add_of_lt hgt
      have hd : a + d + 1 - a = a + d + 1 - (a + 1) + 1 := by omega
      rw [if_neg (by omega), if_neg (by omega), if_neg (by omega), hd, List.getD_cons_succ]

/-- An image loaded from address 0 into memory just constructed. -/
theorem Memory.read_load_nil (image : List Byte) (x : Nat) : (Memory.load [] 0 image).read x = image.getD x 0 := by
  rw [Memory.read_load List.Pairwise.nil, if_neg (Nat.not_lt_zero x)]
  rfl

/-! ## The launch -/

/-- R270, R276: the state just constructed, with the bytes of an image in memory. -/
def State.loaded (c : Config) (image : List Byte) : State :=
  { State.resetWith c with mem := Memory.load [] 0 image }

theorem launch_eq_some_iff {c : Config} {image : List Byte} {s : State} :
    launch c image = some s ↔ image.length ≤ 256 ∧ State.loaded c image = s :=
  Option.ite_none_right_eq_some.trans (and_congr_right' Option.some_inj)

theorem launch_eq_none {c : Config} {image : List Byte} (h : 256 < image.length) : launch c image = none :=
  if_neg (Nat.not_le.mpr h)

theorem State.loaded_mem_wf (c : Config) {image : List Byte} (h : image.length ≤ 256) :
    (State.loaded c image).mem.wf = true :=
  Memory.wf_load Memory.wf_nil (by omega)

theorem State.quiet_loaded (c : Config) (image : List Byte) : Quiet (State.resetWith c) (State.loaded c image) :=
  ⟨rfl, rfl, rfl, rfl⟩

theorem State.loaded_inv {c : Config} {image : List Byte} (hc : c.table.conforms = true)
    (h : image.length ≤ 256) : (State.loaded c image).Inv :=
  { table := hc
    pc := Nat.zero_le 256
    flags := rfl
    mem := State.loaded_mem_wf c h }

/-- Settles O13, by what a read gives after a load into the memory of reset. -/
theorem launchPlacesTheImageFromZero : Obligations.LaunchPlacesTheImageFromZero := fun c image =>
  ⟨fun h => ⟨State.loaded c image, launch_eq_some_iff.mpr ⟨h, rfl⟩, fun a => Memory.read_load_nil image a.toNat,
      fun _ => rfl, State.loaded_mem_wf c h, State.quiet_loaded c image, rfl⟩,
    launch_eq_none⟩

/-- Settles O29; the reset state is the one loaded with no bytes. -/
theorem resetAndLaunchMeetTheInvariant : Obligations.ResetAndLaunchMeetTheInvariant := by
  refine ⟨State.loaded_inv (image := []) defaultTableConforms (Nat.zero_le 256), fun c image s hc h => ?_⟩
  obtain ⟨hlen, rfl⟩ := launch_eq_some_iff.mp h
  exact State.loaded_inv hc hlen

/-! ## The default program -/

/-- R277: the three instructions of the default program, as the default table encodes them. -/
theorem defaultImage_default : defaultImage OpcodeTable.default = [0x82, 0x00, 0x08] ++ [0x47, 0x00] ++ [0x01] := by
  rw [defaultImage, (ldiLoadsTheImmediate.1 0 8).2, (prnAppendsTheRegister.1 0 0).2, (hltStopsTheLoop.1 0 0).2]

/-- Settles O14, by the encodings of LDI, PRN and HLT. -/
theorem defaultProgramIsSixBytes : Obligations.DefaultProgramIsSixBytes :=
  ⟨defaultImage_default, fun _ _ => rfl⟩

/-! ## Well-formed instructions -/

theorem toNat_le_of_mem_usedIndices {i : Instr} (hi : i.wellFormed = true) {s : State} {b : Byte}
    (hb : b ∈ i.usedIndices s) : b.toNat ≤ 7 := by
  have hmem : b ∈ i.registerOperands := by
    rw [Instr.usedIndices] at hb
    split at hb
    · exact hb
    · exact absurd hb List.not_mem_nil
  exact of_decide_eq_true (List.all_eq_true.mp hi b hmem)

/-- R278: the check of the indices is not the first to fail. -/
theorem expectedFault_ne_registerIndexOutOfRange {i : Instr} (hi : i.wellFormed = true) (s : State) :
    i.expectedFault s ≠ some .registerIndexOutOfRange := by
  have hidx : ¬ ∃ b ∈ i.usedIndices s, 7 < b.toNat := fun ⟨_, hb, hgt⟩ =>
    absurd (toNat_le_of_mem_usedIndices hi hb) (Nat.not_le.mpr hgt)
  rw [Instr.expectedFault, if_neg hidx]
  split
  · nofun
  · split <;> nofun

/-- Settles O27, by the fault that an instruction records. -/
theorem wellFormedInstructionsNameRegisters : Obligations.WellFormedInstructionsNameRegisters := by
  intro i s hi hr
  have h := records_exec i s
  cases hk : i.expectedFault s with
  | some k =>
    rw [hk] at h
    refine ⟨s.setRun (.faulted k), h, fun ht => ?_⟩
    rw [State.setRun_run, RunState.faulted.injEq] at ht
    exact expectedFault_ne_registerIndexOutOfRange hi s (hk.trans (congrArg some ht))
  | none =>
    rw [hk] at h
    obtain ⟨t, ht, hrun⟩ := h
    refine ⟨t, ht, fun hf => ?_⟩
    rcases hrun with hrun | hrun <;> simp [hf, hr] at hrun

end Sys2Proof.Machine
end
